-- ==== Sys2Proof/Word.lean ====
section
/-! DEFINITION. The words of TSCORE: the widths of spec/10_state.md, spec/20_memory.md and spec/30_encoding.md. -/

namespace Sys2Proof

/-- `Q7.9`, the document's single precision: signed 16 bits, 9 fractional bits (R90). -/
abbrev Single := BitVec 16

/-- `Q7.25`, the document's double precision: signed 32 bits, 25 fractional bits (R91). -/
abbrev Double := BitVec 32

/-- `RAW`, a device sample: signed 32 bits, 4 fractional bits (R89). -/
abbrev Raw := BitVec 32

/-- A millisecond clock value or time stamp: unsigned 32 bits (R54, R92). -/
abbrev Millis := BitVec 32

/-- `COEF16`, a packed coefficient pair, layout unknown (R92). -/
abbrev Coeff := BitVec 16

/-- `CMD20`, a command word (R80). -/
abbrev CmdWord := BitVec 20

/-- `RSP18`, a response word (R84). -/
abbrev RspWord := BitVec 18

/-- `DIAG10`, a diagnostic word (R86). -/
abbrev DiagWord := BitVec 10

end Sys2Proof
end

