-- ==== Sys2Proof/Syntax.lean ====
section
/-! DEFINITION. The twelve commands of spec/30_encoding.md R82, one constructor each; a SET command carries its
`imm16` (R81). -/

namespace Sys2Proof

/-- The commands TSCORE executes (R2, R82). -/
inductive Instr where
  | init
  | update
  | read
  | readFast
  | readSlow
  | readSlope
  | detPosPeak
  | detNegPeak
  | isConnected
  | setFastCoeff (imm16 : Coeff)
  | setSlowCoeff (imm16 : Coeff)
  | setSlopeCoeff (imm16 : Coeff)
deriving DecidableEq, Repr

end Sys2Proof
end

