-- ==== Sys2Proof/Decode.lean ====
section
/-! DEFINITION. Decoding and encoding of `CMD20` words, by the fields of spec/30_encoding.md R80 to R83. -/

namespace Sys2Proof

/-- Why a word is illegal (R83). -/
inductive DecodeError where
  /-- `op` in 0x0, 0xD, 0xE, 0xF. -/
  | unassignedOp (op : BitVec 4)
  /-- `op` in 0x1 to 0x9 with `imm16 != 0`. -/
  | operandNotZero (op : BitVec 4) (imm16 : BitVec 16)
deriving DecidableEq, Repr

/-- Bits 19:16 of a command word (R80). -/
def opField (w : CmdWord) : BitVec 4 := w.extractLsb' 16 4

/-- Bits 15:0 of a command word (R80). -/
def immField (w : CmdWord) : BitVec 16 := w.extractLsb' 0 16

/-- A command without operand: `imm16` must be zero (R81, R83). -/
def noOperand (i : Instr) (w : CmdWord) : Except DecodeError Instr :=
  if immField w = 0 then .ok i else .error (.operandNotZero (opField w) (immField w))

/-- The decoder, total on the 2^20 words (R82, R83). -/
def decode (w : CmdWord) : Except DecodeError Instr :=
  match (opField w).toNat with
  | 0x1 => noOperand .init w
  | 0x2 => noOperand .update w
  | 0x3 => noOperand .read w
  | 0x4 => noOperand .readFast w
  | 0x5 => noOperand .readSlow w
  | 0x6 => noOperand .readSlope w
  | 0x7 => noOperand .detPosPeak w
  | 0x8 => noOperand .detNegPeak w
  | 0x9 => noOperand .isConnected w
  | 0xA => .ok (.setFastCoeff (immField w))
  | 0xB => .ok (.setSlowCoeff (immField w))
  | 0xC => .ok (.setSlopeCoeff (immField w))
  | _ => .error (.unassignedOp (opField w))

/-- `{op, imm16}` (R80). -/
def commandWord (op : BitVec 4) (imm16 : BitVec 16) : CmdWord := op ++ imm16

/-- The encoder, from the `op` column of R82. -/
def encode : Instr → CmdWord
  | .init => commandWord 0x1 0
  | .update => commandWord 0x2 0
  | .read => commandWord 0x3 0
  | .readFast => commandWord 0x4 0
  | .readSlow => commandWord 0x5 0
  | .readSlope => commandWord 0x6 0
  | .detPosPeak => commandWord 0x7 0
  | .detNegPeak => commandWord 0x8 0
  | .isConnected => commandWord 0x9 0
  | .setFastCoeff imm16 => commandWord 0xA imm16
  | .setSlowCoeff imm16 => commandWord 0xB imm16
  | .setSlopeCoeff imm16 => commandWord 0xC imm16

/-- The instruction whose bits, numbered as spec/opcode_table.json numbers them, are `w`. A command is one word of
exactly 20 bits (R80): bits above 19 must be 0, whatever whole number of bytes `nbits` says (log entry 13). -/
def decodeTableWord (_nbits w : Nat) : Option Instr :=
  if w < 2 ^ 20 then
    match decode (BitVec.ofNat 20 w) with
    | .ok i => some i
    | .error _ => none
  else none

end Sys2Proof
end

