-- ==== Sys2Proof/Machine/Params.lean ====
section
/-! DEFINITION. The constants the document fixes (spec/00_scope.md R8), in one place as U12 asks: the literals are
unaudited (log entry 17). -/

namespace Sys2Proof.Machine.Params

/-- `RAW_FRAC`, the fractional bits of a raw sample (R8). -/
@[simp] def rawFrac : Nat := 4

/-- `S_BITS`, the width of the single-precision word `Single` (R8). -/
@[simp] def sBits : Nat := 16

/-- `S_FRAC`, its fractional bits (R8). -/
@[simp] def sFrac : Nat := 9

/-- `D_BITS`, the width of the double-precision word `Double` (R8). -/
@[simp] def dBits : Nat := 32

/-- `D_FRAC`, its fractional bits (R8). -/
@[simp] def dFrac : Nat := 25

/-- `RESCALE_SHIFT` (R8). -/
def rescaleShift : Nat := sFrac - rawFrac

/-- `SLOPE_SHIFT` (R8). -/
def slopeShift : Nat := dFrac - sFrac

/-- `RAW_LO`: `INT_MIN` of the single-precision word, shifted right by `RESCALE_SHIFT` (R112). -/
def rawLo : Int := (-2 ^ (sBits - 1) : Int) >>> rescaleShift

/-- `RAW_HI`: `INT_MAX` of the single-precision word, shifted right by `RESCALE_SHIFT` (R112). -/
def rawHi : Int := (2 ^ (sBits - 1) - 1 : Int) >>> rescaleShift

@[simp] theorem rescaleShift_eq : rescaleShift = 5 := rfl
@[simp] theorem slopeShift_eq : slopeShift = 16 := rfl
@[simp] theorem rawLo_eq : rawLo = -1024 := rfl
@[simp] theorem rawHi_eq : rawHi = 1023 := rfl

/-- The words have the widths of R8. -/
theorem single_eq : Single = BitVec sBits := rfl
theorem double_eq : Double = BitVec dBits := rfl

/-- `SLOPE_MULT = 3600 / 30` (R8). -/
@[simp] def slopeMult : Int := 120

/-- `DECIM`, the decimation period in connected ticks (R8). -/
@[simp] def decim : BitVec 8 := 30

/-- `CNT_FIRST`, the counter's value at every entry into `Connected` (R8). -/
@[simp] def cntFirst : BitVec 8 := 31

/-- `RES_BITS`, the conversion resolution (R8). -/
@[simp] def resBits : BitVec 8 := 12

/-- `ADDR_INDEX` (R9). -/
@[simp] def addrIndex : BitVec 8 := 0

/-- `T_CONV`, ms (R8). -/
@[simp] def tConv : BitVec 16 := 750

/-- `T_ACQ_TIMEOUT`, ms (R8). -/
@[simp] def tAcqTimeout : Millis := 2000

/-- `T_STALE`, ms (R8). -/
@[simp] def tStale : Millis := 5000

/-- `T_SETTLE`, ms (R8). -/
@[simp] def tSettle : BitVec 16 := 2000

end Sys2Proof.Machine.Params
end

