-- ==== Sys2Proof/Machine/FixedPoint.lean ====
section
/-! DEFINITION. The arithmetic of TSCORE (spec/40_fixed_point.md R111 to R118, spec/41_slope.md R135, R15). Operands are
read as integers, the result is computed exactly and narrowed once (R11). -/

namespace Sys2Proof.Machine

/-- `clamp(v, lo, hi)` (R11). -/
def clamp (v lo hi : Int) : Int := if v < lo then lo else if hi < v then hi else v

/-- `RescaleSat` (R113): clamp to [-1024, 1023], then shift left by 5. -/
def rescaleSat (raw : Raw) : Single :=
  BitVec.ofInt 16 (clamp raw.toInt Params.rawLo Params.rawHi * 2 ^ Params.rescaleShift)

/-- `Sub32` (R116): the difference modulo 2^32. -/
def sub32 (a b : Double) : Double := BitVec.ofInt 32 (a.toInt - b.toInt)

/-- `Mul32` (R117): the product modulo 2^32. -/
def mul32 (a : Double) (k : Int) : Double := BitVec.ofInt 32 (a.toInt * k)

/-- `Asr16` (R118): bits 31:16. -/
def asr16 (a : Double) : Single := a.extractLsb' Params.slopeShift 16

/-- `SlopeScale` (R135). -/
def slopeScale (x : Double) : Single := asr16 (mul32 x Params.slopeMult)

/-- `(now - t) mod 2^32`, the value of `Elapsed(t)` when the clock answers `now` (R15). -/
def elapsed (now t : Millis) : Millis := now - t

end Sys2Proof.Machine
end

