-- ==== Sys2Proof/Config.lean ====
section
/-! DEFINITION. What the spec leaves OPEN (spec/00_scope.md R9): the named parameters of the model, bodiless constants
of which nothing is assumed but the laws the spec states. The constants the document fixes (R8) are in
Sys2Proof/Machine/Params.lean. -/

namespace Sys2Proof

/-! ### The device address -/

/-- `ADDR_BITS` less one: OPEN (R9, D15). -/
opaque Config.addrBitsLessOne : Nat

/-- `ADDR_BITS`, a positive integer: OPEN (R9, D15; log entry 4). -/
def Config.addrBits : Nat := Config.addrBitsLessOne + 1

/-- A device address, `ADDR_BITS` bits, opaque to TSCORE (R22, R92). -/
abbrev Addr := BitVec Config.addrBits

/-! ### The Filter Stage component -/

/-- One operation TSCORE applies to a Filter Stage component (R151). -/
inductive FilterOp where
  | init (seed : Single)
  | add (value : Single)
  | addDouble (value : Double)
  | setCoefficients (packed : Coeff)
deriving DecidableEq, Repr

/-- Which numbers are codes of filter states: OPEN, so that nothing tells how many states there are (R159 g). -/
opaque Config.isFilterCode : Nat → Bool

/-- `F.State` (R27, R150): a set of which no more is known than that it can have the states R152 asks for, one for each
seed at least (log entry 6). What a state is, only the functions of `Config.F` say. -/
def FilterState := Single ⊕ {code : Nat // Config.isFilterCode code = true}
deriving DecidableEq, Repr

/-- The five values that can be read off a filter state (R151). -/
structure FilterReads where
  input : Single
  output : Single
  outputDouble : Double
  posPeak : Single
  negPeak : Single
deriving DecidableEq, Repr

/-- `F.reset_state` and the nine functions of the contract (R150, R151). The values after `:=` belong to no component of
this hardware: they show Lean that a component which meets the laws exists. -/
structure FilterFunctions where
  resetState : FilterState := .inl 0
  init : FilterState → Single → FilterState := fun _ seed => .inl seed
  add : FilterState → Single → FilterState := fun _ value => .inl value
  addDouble : FilterState → Double → FilterState := fun s _ => s
  setCoefficients : FilterState → Coeff → FilterState := fun s _ => s
  readInput : FilterState → Single := Sum.elim id fun _ => 0
  readOutput : FilterState → Single := Sum.elim id fun _ => 0
  readOutputDouble : FilterState → Double := fun _ => 0
  detectPosPeak : FilterState → Single := fun _ => 0
  detectNegPeak : FilterState → Single := fun _ => 0
deriving Inhabited

/-- One operation applied to one filter state (R151). -/
def FilterFunctions.apply (f : FilterFunctions) (op : FilterOp) (s : FilterState) : FilterState :=
  match op with
  | .init seed => f.init s seed
  | .add value => f.add s value
  | .addDouble value => f.addDouble s value
  | .setCoefficients packed => f.setCoefficients s packed

/-- A sequence of operations, first one first, applied to one filter state. -/
def FilterFunctions.applyAll (f : FilterFunctions) : List FilterOp → FilterState → FilterState
  | [], s => s
  | op :: ops, s => f.applyAll ops (f.apply op s)

/-- All that can be read off a filter state (R151). -/
def FilterFunctions.reads (f : FilterFunctions) (s : FilterState) : FilterReads where
  input := f.readInput s
  output := f.readOutput s
  outputDouble := f.readOutputDouble s
  posPeak := f.detectPosPeak s
  negPeak := f.detectNegPeak s

/-- The component with the laws a model may assume of it, and no others (R150, R159). The laws R154, R155 and R158 are
the types of the functions. This is the premise `FilterLaws` of R293. -/
structure FilterStage extends FilterFunctions where
  /-- R152, of the input. -/
  input_init : ∀ s seed, readInput (init s seed) = seed := by intros; rfl
  /-- R152, of the output. -/
  output_init : ∀ s seed, readOutput (init s seed) = seed := by intros; rfl
  /-- R153. -/
  input_add : ∀ s value, readInput (add s value) = value := by intros; rfl
  /-- R156: behaviour is what can be read after any later sequence of operations. -/
  init_keeps_coefficients : ∀ s packed seed ops,
    toFilterFunctions.reads (toFilterFunctions.applyAll ops (init (setCoefficients s packed) seed)) =
      toFilterFunctions.reads (toFilterFunctions.applyAll ops (setCoefficients (init s seed) packed)) := by intros; rfl
  /-- R157. -/
  reads_setCoefficients : ∀ s packed,
    toFilterFunctions.reads (setCoefficients s packed) = toFilterFunctions.reads s := by intros; rfl
deriving Inhabited

/-- The component `F` (R150): OPEN. -/
opaque Config.F : FilterStage

/-! ### Configuration, sentinel and answers -/

/-- `CFG_ADDR`, sampled at reset (R9, R270): OPEN. -/
opaque Config.cfgAddr : Addr

/-- `CFG_CHANNEL`, sampled at reset (R9, R270): OPEN. -/
opaque Config.cfgChannel : BitVec 8

/-- `RAW_SENTINEL` (R9, D14): OPEN. -/
opaque Config.rawSentinel : Raw

/-- The answer number `n` of `Bus.get_address`, when the state lists none; `none` is `ok = 0` (R53, R60). A free
value: log entry 1. -/
opaque Config.busAddress : Nat → Option Addr

/-- The answer number `n` of `Bus.read_raw`, when the state lists none (R52, R60). A free value: log entry 1. -/
opaque Config.busRaw : Nat → Raw

/-- The answer number `n` of `Clock.now`, when the state lists none (R54, R60). A free value: log entry 1. -/
opaque Config.clockNow : Nat → Millis

/-- `CNT` decremented from 0, which R130 says does not happen and gives no result. A free value: log entry 9. -/
opaque Config.counterBelowZero : BitVec 8

end Sys2Proof
end

