-- ==== Sys2Proof/Machine/State.lean ====
section
/-! DEFINITION. The state of TSCORE (spec/10_state.md R20 to R34), the outputs the spec has the model record (R292), and
the inputs of the environment (R60). Plain data. -/

namespace Sys2Proof.Machine

/-- The connection state `LSTATE` (R21). The code 3 does not exist (U18). -/
inductive LState where
  | uninitialized
  | disconnected
  | connected
deriving DecidableEq, Repr

/-- The commands that run InitProc (R192): INIT itself, and UPDATE on its reconnect path. -/
inductive Caller where
  | init
  | update
deriving DecidableEq, Repr

/-- The three filters, `FILT[k]` (R12, R27). -/
inductive FilterSel where
  | fast
  | slow
  | slope
deriving DecidableEq, Repr

/-- One transaction on the BUS, CLK, DLY or DIAG port, with the collaborator's answer (R13, R50 to R56). -/
inductive Transaction where
  | busReset
  /-- `answer = none` is `ok = 0` (R53). -/
  | busGetAddress (index : BitVec 8) (answer : Option Addr)
  | busSetResolution (addr : Addr) (bits : BitVec 8)
  | busRequestConversion
  | busReadRaw (addr : Addr) (answer : Raw)
  | clockNow (answer : Millis)
  | delay (ms : BitVec 16)
  | diag (word : DiagWord)
deriving DecidableEq, Repr

/-- Why a step stops with a fault. No step does: "There are no fatal conditions in this core" (R245). -/
inductive Fault where
  /-- The read of `T_REQ`, `CNT` or `REF` before its first write that R34 says would fault. Raised by NO meaning: R24 to
  R26 show that no rule performs such a read, and every register holds a value at reset (log entries 8 and 16). Safe. -/
  | valuelessRead (register : String)
deriving DecidableEq, Repr

/-- Why a step gives an instruction no meaning. -/
inductive Refusal where
  /-- An arm of exec that has no meaning yet. Raised by no arm of this model. Safe. -/
  | notModelled (mnemonic : String)
deriving DecidableEq, Repr

/-- The machine and its environment. -/
@[ext]
structure State where
  /-- `LSTATE`, the connection state (R21). -/
  lstate : LState
  /-- `ADDR`, the device address (R22). -/
  addr : Addr
  /-- `CHAN`, the channel id (R23). -/
  chan : BitVec 8
  /-- `T_REQ`, the time of the most recent conversion request (R24). -/
  tReq : Millis
  /-- `CNT`, the decimation counter (R25). -/
  cnt : BitVec 8
  /-- `REF`, the previous slope reference (R26). -/
  ref : Double
  /-- `FILT[FAST]` (R27). -/
  filtFast : FilterState
  /-- `FILT[SLOW]` (R27). -/
  filtSlow : FilterState
  /-- `FILT[SLOPE]` (R27). -/
  filtSlope : FilterState
  /-- The command words the host will present, in order (R50; log entry 12). -/
  commands : List CmdWord
  /-- The answers `Bus.get_address` will give, in order; past the end an answer is free (R60; log entry 1). -/
  addrIn : List (Option Addr)
  /-- The answers `Bus.read_raw` will give, in order; past the end an answer is free (R60; log entry 1). -/
  rawIn : List Raw
  /-- The answers `Clock.now` will give, in order; past the end an answer is free (R60; log entry 1). -/
  clockIn : List Millis
  /-- How many answers `Bus.get_address` has given, which numbers the free ones (log entry 1). -/
  addrAsked : Nat
  /-- How many answers `Bus.read_raw` has given (log entry 1). -/
  rawAsked : Nat
  /-- How many answers `Clock.now` has given (log entry 1). -/
  clockAsked : Nat
  /-- The command whose spin-wait (InitProc step 6) is still polling, if one is (R283; log entry 11). -/
  acquiring : Option Caller
  /-- The port transactions made, oldest first (R292). -/
  trace : List Transaction
  /-- The response words given, oldest first (R84). -/
  responses : List RspWord
  /-- The operations applied to the filters since reset, oldest first (R160). Recorded, and read by no command
  (log entry 7). -/
  fed : List (FilterSel × FilterOp)
deriving DecidableEq, Repr

/-- After reset (R34, R270): `LSTATE`, `ADDR`, `CHAN` and the filters as R34 gives them; `T_REQ`, `CNT`, `REF` hold 0
where R34 gives no value (DESIGN CHOICE, unsafe: log entry 8); nothing is presented, answered or recorded yet. -/
def State.reset : State where
  lstate := .uninitialized
  addr := Config.cfgAddr
  chan := Config.cfgChannel
  tReq := 0
  cnt := 0
  ref := 0
  filtFast := Config.F.resetState
  filtSlow := Config.F.resetState
  filtSlope := Config.F.resetState
  commands := []
  addrIn := []
  rawIn := []
  clockIn := []
  addrAsked := 0
  rawAsked := 0
  clockAsked := 0
  acquiring := none
  trace := []
  responses := []
  fed := []

end Sys2Proof.Machine
end

