-- ==== Sys2Proof/Machine/Operands.lean ====
section
/-! DEFINITION. The operands commands reach: which filter (spec/10_state.md R27) and which read function
(spec/42_filter_stage.md R161) a command selects. The only operand inside a command word is `imm16`, a packed
coefficient pair taken bit for bit (R81): Decode.lean reads it. -/

namespace Sys2Proof.Machine

/-- `FILT[k]` (R12). -/
def filt (k : FilterSel) (s : State) : FilterState :=
  match k with
  | .fast => s.filtFast
  | .slow => s.filtSlow
  | .slope => s.filtSlope

/-- `FILT[k] <- v` (R12): the other two keep their value (R155). -/
def setFilt (k : FilterSel) (v : FilterState) (s : State) : State :=
  match k with
  | .fast => { s with filtFast := v }
  | .slow => { s with filtSlow := v }
  | .slope => { s with filtSlope := v }

/-- The read functions the multiplexer of R161 can select, with the post-processing of its last column. -/
inductive ReadFn where
  | input
  | output
  | outputDoubleScaled
  | posPeak
  | negPeak
deriving DecidableEq, Repr

/-- The value a read function gives on a filter (R161). -/
def readFn (f : ReadFn) (h : FilterState) : Single :=
  match f with
  | .input => Config.F.readInput h
  | .output => Config.F.readOutput h
  | .outputDoubleScaled => slopeScale (Config.F.readOutputDouble h)
  | .posPeak => Config.F.detectPosPeak h
  | .negPeak => Config.F.detectNegPeak h

end Sys2Proof.Machine
end

