-- ==== Sys2Proof/Machine/Filter.lean ====
section
/-! DEFINITION. The one way by which an operation reaches a filter (spec/42_filter_stage.md R151, R160). -/

namespace Sys2Proof.Machine

/-- `FILT[k] <- F.op(FILT[k], args)` (R12), recorded. -/
def operate (k : FilterSel) (op : FilterOp) (s : State) : State :=
  { setFilt k (Config.F.apply op (filt k s)) s with fed := s.fed ++ [(k, op)] }

end Sys2Proof.Machine
end

