-- ==== Sys2Proof/Machine/Ports.lean ====
section
/-! DEFINITION. The words on TSCORE's ports: RSP18 (spec/30_encoding.md R84), DIAG10 (R86), the BUS request and reply
(R88) and the code of LSTATE (R21). -/

namespace Sys2Proof.Machine

/-- The code of `LSTATE` (R21). -/
def LState.code : LState → BitVec 2
  | .uninitialized => 0
  | .disconnected => 1
  | .connected => 2

/-- The response status (R84); 3 is never produced (U18). -/
inductive Status where
  | ok
  | illegal
  | seq
deriving DecidableEq, Repr

/-- Bits 17:16 of a response (R84). -/
def Status.code : Status → BitVec 2
  | .ok => 0
  | .illegal => 1
  | .seq => 2

/-- `{status, data}` (R84). -/
def responseWord (st : Status) (data : BitVec 16) : RspWord := st.code ++ data

/-- The three diagnostics (R85, R86); code 0 is never sent. -/
inductive DiagCode where
  | addrFail
  | disconnect
  | reconnect
deriving DecidableEq, Repr

/-- Bits 9:8 of a diagnostic (R86). -/
def DiagCode.code : DiagCode → BitVec 2
  | .addrFail => 1
  | .disconnect => 2
  | .reconnect => 3

/-- `{code, chan}` (R86). -/
def diagWord (c : DiagCode) (chan : BitVec 8) : DiagWord := c.code ++ chan

/-- A BUS request `{bop, arg8, addr}` (R88). -/
structure BusRequest where
  bop : BitVec 3
  arg8 : BitVec 8
  addr : Addr
deriving DecidableEq, Repr

/-- The request as one word of `3 + 8 + ADDR_BITS` bits (R88). -/
def BusRequest.word (q : BusRequest) : BitVec (3 + 8 + Config.addrBits) := q.bop ++ q.arg8 ++ q.addr

/-- A BUS reply `{ok, raddr, raw}` (R88). -/
structure BusReply where
  ok : BitVec 1
  raddr : Addr
  raw : Raw
deriving DecidableEq, Repr

/-- The reply as one word of `1 + ADDR_BITS + 32` bits (R88). -/
def BusReply.word (r : BusReply) : BitVec (1 + Config.addrBits + 32) := r.ok ++ r.raddr ++ r.raw

/-- The request of a BUS transaction, unused fields zero (R88); none for the other ports. -/
def busRequest : Transaction → Option BusRequest
  | .busReset => some ⟨0, 0, 0⟩
  | .busGetAddress index _ => some ⟨1, index, 0⟩
  | .busSetResolution addr bits => some ⟨2, bits, addr⟩
  | .busRequestConversion => some ⟨3, 0, 0⟩
  | .busReadRaw addr _ => some ⟨4, 0, addr⟩
  | .clockNow _ => none
  | .delay _ => none
  | .diag _ => none

/-- The answer `get_address` takes from a reply: `raddr` is meaningless when `ok = 0` (R53, R88). -/
def replyAddress (r : BusReply) : Option Addr := if r.ok = 1 then some r.raddr else none

/-- Whether a reply word agrees with the answer a BUS transaction recorded: only the fields the transaction uses count
(R88). -/
def replyAgrees (r : BusReply) : Transaction → Bool
  | .busGetAddress _ answer => replyAddress r = answer
  | .busReadRaw _ answer => r.raw = answer
  | .busReset => true
  | .busSetResolution _ _ => true
  | .busRequestConversion => true
  | .clockNow _ => false
  | .delay _ => false
  | .diag _ => false

/-- The diagnostic words of a list of transactions, in order (R292). -/
def diagnosticsOf : List Transaction → List DiagWord
  | [] => []
  | .diag w :: t => w :: diagnosticsOf t
  | _ :: t => diagnosticsOf t

/-- The diagnostic words emitted so far (R292). -/
def diagnostics (s : State) : List DiagWord := diagnosticsOf s.trace

/-- The milliseconds a list of transactions spends in `Delay` (R55, R290). -/
def delayTotal : List Transaction → Nat
  | [] => 0
  | .delay n :: t => n.toNat + delayTotal t
  | _ :: t => delayTotal t

end Sys2Proof.Machine
end

