-- ==== Sys2Proof/Machine/Ops.lean ====
section
/-! DEFINITION. The named operations over the state: recording a transaction, answering a command, the port primitives
of spec/00_scope.md R13, the refusals of R244 and the reset event of R270. -/

namespace Sys2Proof.Machine

/-- One transaction is made; transactions are made one at a time, in program order (R61). -/
def record (t : Transaction) (s : State) : State := { s with trace := s.trace ++ [t] }

/-- The command is answered by one response word (R50, R84). -/
def respond (st : Status) (data : BitVec 16) (s : State) : State :=
  { s with responses := s.responses ++ [responseWord st data] }

/-- `return status OK, data` (R84). -/
def respondOk (data : BitVec 16) (s : State) : State := respond .ok data s

/-- `raise IllegalCommand` and `raise SequenceError`: the command ends at once with its status and data 0; no register,
filter or port but RSP is touched (R14, R244). The run goes on (R292; log entry 10). -/
def refuseCommand (st : Status) (s : State) : State := respond st 0 s

/-- `Bus.reset()` (R51). -/
def busReset (s : State) : State := record .busReset s

/-- What `Bus.get_address` answers next: the listed answer, else a free value (R53, R60; log entry 1). -/
def addressAnswer (s : State) : Option Addr := s.addrIn.headD (Config.busAddress s.addrAsked)

/-- `Bus.get_address(ADDR_INDEX)` takes place (R53). -/
def takeAddress (s : State) : State :=
  record (.busGetAddress Params.addrIndex (addressAnswer s))
    { s with addrIn := s.addrIn.tail, addrAsked := s.addrAsked + 1 }

/-- `Bus.set_resolution(ADDR, bits)` (R13). -/
def busSetResolution (bits : BitVec 8) (s : State) : State := record (.busSetResolution s.addr bits) s

/-- `Bus.request_conversion()` (R13). -/
def busRequestConversion (s : State) : State := record .busRequestConversion s

/-- What `Bus.read_raw(ADDR)` answers next: the listed answer, else a free value (R52, R60; log entry 1). -/
def rawAnswer (s : State) : Raw := s.rawIn.headD (Config.busRaw s.rawAsked)

/-- `Bus.read_raw(ADDR)` takes place (R52). -/
def takeRaw (s : State) : State :=
  record (.busReadRaw s.addr (rawAnswer s)) { s with rawIn := s.rawIn.tail, rawAsked := s.rawAsked + 1 }

/-- What `Clock.now()` answers next: the listed answer, else a free value (R54, R60; log entries 1 and 2). -/
def clockAnswer (s : State) : Millis := s.clockIn.headD (Config.clockNow s.clockAsked)

/-- `Clock.now()` takes place (R54). -/
def takeClock (s : State) : State :=
  record (.clockNow (clockAnswer s)) { s with clockIn := s.clockIn.tail, clockAsked := s.clockAsked + 1 }

/-- `Delay(n)` (R55). -/
def delay (ms : BitVec 16) (s : State) : State := record (.delay ms) s

/-- `Diag.emit(c)` sends `{c, CHAN}` (R56, R86). -/
def diagEmit (c : DiagCode) (s : State) : State := record (.diag (diagWord c s.chan)) s

/-- `Bus.request_conversion(); T_REQ <- Clock.now()`: every request is stamped at once (R24). -/
def requestAndStamp (s : State) : State :=
  let s1 := busRequestConversion s
  { takeClock s1 with tReq := clockAnswer s1 }

/-- The reset event (R270): the two configuration inputs are sampled, LSTATE is Uninitialized and the filters are at
`F.reset_state`; no port transaction is made. `T_REQ`, `CNT` and `REF` are left without a value by the spec and hold
what State.reset gives them (log entry 8); what was output before stays recorded (log entry 20). -/
def resetEvent (cfgAddr : Addr) (cfgChannel : BitVec 8) (s : State) : State :=
  { s with
    lstate := .uninitialized, addr := cfgAddr, chan := cfgChannel
    tReq := State.reset.tReq, cnt := State.reset.cnt, ref := State.reset.ref
    filtFast := Config.F.resetState, filtSlow := Config.F.resetState, filtSlope := Config.F.resetState
    acquiring := none, fed := [] }

/-- What the machine does next (R50): go on polling inside a command whose spin-wait is not over, take the next command
word, or wait for the host. -/
inductive Fetched where
  | polling (c : Caller) (s : State)
  | word (w : CmdWord) (s : State)
  | idle
deriving DecidableEq, Repr

/-- The command port (R50): no word is taken before the command in progress has answered. -/
def fetch (s : State) : Fetched :=
  match s.acquiring, s.commands with
  | some c, _ => .polling c { s with acquiring := none }
  | none, w :: rest => .word w { s with commands := rest }
  | none, [] => .idle

end Sys2Proof.Machine
end

