-- ==== Sys2Proof/Machine/Coefficients.lean ====
section
/-! DEFINITION. The three SET commands (spec/42_filter_stage.md R176 to R178): any operand, legal in every LSTATE,
response OK with data 0. -/

namespace Sys2Proof.Machine

/-- `FILT[k] <- F.set_coefficients(FILT[k], imm16)`, and nothing else (R176 to R178). -/
def setCoefficients (k : FilterSel) (imm16 : Coeff) (s : State) : Host.Outcome State Fault Refusal :=
  .next (respondOk 0 (operate k (.setCoefficients imm16) s))

/-- SET_FAST_COEFF (R176). -/
def execSetFastCoeff (imm16 : Coeff) (s : State) : Host.Outcome State Fault Refusal := setCoefficients .fast imm16 s

/-- SET_SLOW_COEFF (R177). -/
def execSetSlowCoeff (imm16 : Coeff) (s : State) : Host.Outcome State Fault Refusal := setCoefficients .slow imm16 s

/-- SET_SLOPE_COEFF (R178). -/
def execSetSlopeCoeff (imm16 : Coeff) (s : State) : Host.Outcome State Fault Refusal := setCoefficients .slope imm16 s

end Sys2Proof.Machine
end

