-- ==== Sys2Proof/Machine/Acquire.lean ====
section
/-! DEFINITION. The acquisition procedure InitProc (spec/43_lifecycle.md R192). Its spin-wait is run through every
reading the state lists; if none ends it, the command stays in progress and each later step polls once, so that a hang
is an infinite run (R283, U15; log entry 11). `RAW_SENTINEL` is a parameter (R33) and comes in as an argument. -/

namespace Sys2Proof.Machine

/-- Step 2: resolve the address; on failure emit ADDR_FAIL and carry on with the address held (R192, R240). -/
def resolveAddress (s : State) : State :=
  match addressAnswer s with
  | some a => { takeAddress s with addr := a }
  | none => diagEmit .addrFail (takeAddress s)

/-- Steps 1 to 5 (R192). -/
def initBegin (s : State) : State :=
  delay Params.tConv (requestAndStamp (busSetResolution Params.resBits (resolveAddress (busReset s))))

/-- How one poll of step 6 ends. -/
inductive Poll where
  /-- A valid reading, itself discarded. -/
  | valid (s : State)
  /-- The sentinel, and more than 2000 ms since the request. -/
  | timeout (s : State)
  /-- The sentinel, and time left. -/
  | again (s : State)
deriving DecidableEq, Repr

/-- One poll of step 6: the reading is tested before the time (R192, R247). -/
def pollOnce (sentinel : Raw) (s : State) : Poll :=
  let s1 := takeRaw s
  if rawAnswer s ≠ sentinel then .valid s1
  else if Params.tAcqTimeout < elapsed (clockAnswer s1) s1.tReq then .timeout (takeClock s1)
  else .again (takeClock s1)

/-- At most `n` polls of step 6. -/
def pollLoop (sentinel : Raw) : Nat → State → Poll
  | 0, s => .again s
  | n + 1, s =>
    match pollOnce sentinel s with
    | .valid t => .valid t
    | .timeout t => .timeout t
    | .again t => pollLoop sentinel n t

/-- The three `F.init` of step 8, with no port transaction between them (R29 b, R192). -/
def seedFilters (seed : Single) (s : State) : State :=
  operate .slope (.init 0) (operate .slow (.init seed) (operate .fast (.init seed) s))

/-- Step 8: seed the filters, capture REF, load CNT, become Connected (R192). -/
def connect (seed : Single) (s : State) : State :=
  let s1 := seedFilters seed s
  { s1 with ref := Config.F.readOutputDouble s1.filtSlow, cnt := Params.cntFirst, lstate := .connected }

/-- Steps 7 and 8: the second reading is the seed and is not compared with the sentinel (R192, R193 d). -/
def initFinish (s : State) : State :=
  let s1 := delay Params.tConv (requestAndStamp s)
  connect (rescaleSat (rawAnswer s1)) (takeRaw s1)

/-- Where InitProc stands. -/
inductive Acquisition where
  /-- It has returned, on success or on timeout. -/
  | done (s : State)
  /-- Its spin-wait goes on. -/
  | polling (s : State)
deriving DecidableEq, Repr

/-- What follows a poll: steps 7 and 8, or the timeout of step 6 (R192, R241), or the next poll. -/
def afterPoll : Poll → Acquisition
  | .valid s => .done (initFinish s)
  | .timeout s => .done { s with lstate := .disconnected }
  | .again s => .polling s

/-- `InitProc` (R192). The readings listed when the loop starts bound how many polls this step makes, never how many the
loop makes. -/
def initProc (sentinel : Raw) (s : State) : Acquisition :=
  afterPoll (pollLoop sentinel s.rawIn.length (initBegin s))

end Sys2Proof.Machine
end

