-- ==== Sys2Proof/Machine/Flags.lean ====
section
/-! DEFINITION. TSCORE has no flags: no arithmetic rule records that it saturated or wrapped (spec/10_state.md R30).
The one flag-like value is LSTATE, read by IS_CONNECTED as a single bit. -/

namespace Sys2Proof.Machine

/-- `(LSTATE == Connected) ? 0x0001 : 0x0000` (R30, R210). -/
def connectedBit (s : State) : BitVec 16 := if s.lstate = .connected then 1 else 0

end Sys2Proof.Machine
end

