-- ==== Sys2Proof/Machine/Slope.lean ====
section
/-! DEFINITION. The decimated differencer (spec/41_slope.md R130). -/

namespace Sys2Proof.Machine

/-- The one-time capture, decided on the value `CNT` holds on entry (R130, C2). -/
def slopeCapture (s : State) : State :=
  if s.cnt = Params.cntFirst then { s with ref := Config.F.readOutputDouble s.filtSlow } else s

/-- The counter has reached 0: feed the delta, take the new reference, reload (R130). -/
def slopeFire (s : State) : State :=
  let cur := Config.F.readOutputDouble s.filtSlow
  { operate .slope (.addDouble (sub32 cur s.ref)) s with ref := cur, cnt := Params.decim }

/-- `c0 - 1` (R130). `CNT` is never 0 on entry while connected (R25, R130), and the spec states no result there: a free
value (log entry 9). -/
def counterAfter (c0 : BitVec 8) : BitVec 8 := if c0 = 0 then Config.counterBelowZero else c0 - 1

/-- `SlopeStep` (R130). -/
def slopeStep (s : State) : State :=
  let s1 := slopeCapture s
  let s2 := { s1 with cnt := counterAfter s.cnt }
  if s2.cnt = 0 then slopeFire s2 else s2

end Sys2Proof.Machine
end

