-- ==== Sys2Proof/Machine/Lifecycle.lean ====
section
/-! DEFINITION. The commands of the lifecycle controller: INIT, UPDATE, IS_CONNECTED (spec/43_lifecycle.md R194, R200,
R210). -/

namespace Sys2Proof.Machine

/-- UPDATE step 1: a request older than 5000 ms is issued anew (R200). -/
def updateStale (s : State) : State :=
  let s1 := takeClock s
  if Params.tStale < elapsed (clockAnswer s) s.tReq then delay Params.tConv (requestAndStamp s1) else s1

/-- UPDATE step 3: the reading is the sentinel; the diagnostic is emitted on the transition only (R200, R242). -/
def updateLost (s : State) : State :=
  let s1 := if s.lstate = .connected then diagEmit .disconnect s else s
  respondOk 0 { s1 with lstate := .disconnected }

/-- UPDATE step 5: fast and slow filters are fed the same value (R160, R200). -/
def feedFilters (v : Single) (s : State) : State := operate .slow (.add v) (operate .fast (.add v) s)

/-- UPDATE steps 5, 5b and 6 on a valid reading (R200). -/
def updateFeed (raw : Raw) (s : State) : State :=
  respondOk 0 (requestAndStamp (slopeStep (feedFilters (rescaleSat raw) s)))

/-- The rest of UPDATE step 4 once InitProc has returned, and what follows (R200, R202). -/
def updateAfterInit (sentinel : Raw) (s : State) : State :=
  if s.lstate = .connected then
    let s1 := takeRaw s
    if rawAnswer s = sentinel then updateLost s1 else updateFeed (rawAnswer s) (diagEmit .reconnect s1)
  else respondOk 0 s

/-- The command that ran InitProc goes on, or stays in progress while the spin-wait does. -/
def afterAcquisition (sentinel : Raw) (c : Caller) : Acquisition → State
  | .polling s => { s with acquiring := some c }
  | .done s =>
    match c with
    | .init => respondOk 0 s
    | .update => updateAfterInit sentinel s

/-- One more poll of a spin-wait in progress (R192 step 6, R283; log entry 11). -/
def continueCommand (sentinel : Raw) (c : Caller) (s : State) : State :=
  afterAcquisition sentinel c (afterPoll (pollOnce sentinel s))

/-- INIT (R194), with `RAW_SENTINEL` as an argument. -/
def initCommand (sentinel : Raw) (s : State) : State := afterAcquisition sentinel .init (initProc sentinel s)

/-- INIT (R194): legal in every LSTATE. -/
def execInit (s : State) : Host.Outcome State Fault Refusal := .next (initCommand Config.rawSentinel s)

/-- UPDATE from its step 3 on, with the reading of step 2 (R200). -/
def updateWithReading (sentinel raw : Raw) (s : State) : State :=
  if raw = sentinel then updateLost s
  else if s.lstate = .disconnected then
    afterAcquisition sentinel .update (initProc sentinel (delay Params.tSettle s))
  else updateFeed raw s

/-- UPDATE (R200), with `RAW_SENTINEL` as an argument: refused with SequenceError while Uninitialized (step 0). -/
def updateCommand (sentinel : Raw) (s : State) : State :=
  if s.lstate = .uninitialized then refuseCommand .seq s
  else
    let s1 := updateStale s
    updateWithReading sentinel (rawAnswer s1) (takeRaw s1)

/-- UPDATE (R200). -/
def execUpdate (s : State) : Host.Outcome State Fault Refusal := .next (updateCommand Config.rawSentinel s)

/-- IS_CONNECTED (R210): the state as of the last INIT or UPDATE. -/
def execIsConnected (s : State) : Host.Outcome State Fault Refusal := .next (respondOk (connectedBit s) s)

end Sys2Proof.Machine
end

