-- ==== Sys2Proof/Machine/Query.lean ====
section
/-! DEFINITION. The six read commands (spec/42_filter_stage.md R161, R170 to R174; spec/41_slope.md R140): pure reads,
legal in every LSTATE. -/

namespace Sys2Proof.Machine

/-- A read command: one read function of one filter is the response (R161); nothing else changes (R175). -/
def answerRead (k : FilterSel) (f : ReadFn) (s : State) : Host.Outcome State Fault Refusal :=
  .next (respondOk (readFn f (filt k s)) s)

/-- READ (R170). -/
def execRead (s : State) : Host.Outcome State Fault Refusal := answerRead .fast .input s

/-- READ_FAST (R171). -/
def execReadFast (s : State) : Host.Outcome State Fault Refusal := answerRead .fast .output s

/-- READ_SLOW (R172). -/
def execReadSlow (s : State) : Host.Outcome State Fault Refusal := answerRead .slow .output s

/-- READ_SLOPE (R140). -/
def execReadSlope (s : State) : Host.Outcome State Fault Refusal := answerRead .slope .outputDoubleScaled s

/-- DET_POS_PEAK (R173). -/
def execDetPosPeak (s : State) : Host.Outcome State Fault Refusal := answerRead .slow .posPeak s

/-- DET_NEG_PEAK (R174). -/
def execDetNegPeak (s : State) : Host.Outcome State Fault Refusal := answerRead .slow .negPeak s

end Sys2Proof.Machine
end

