-- ==== Sys2Proof/Machine/Dispatch.lean ====
section
/-! DEFINITION. One arm per command (spec/30_encoding.md R82). -/

namespace Sys2Proof.Machine

/-- What a command does (R82). -/
def exec (i : Instr) (s : State) : Host.Outcome State Fault Refusal :=
  match i with
  | .init => Sys2Proof.Machine.execInit s
  | .update => Sys2Proof.Machine.execUpdate s
  | .read => Sys2Proof.Machine.execRead s
  | .readFast => Sys2Proof.Machine.execReadFast s
  | .readSlow => Sys2Proof.Machine.execReadSlow s
  | .readSlope => Sys2Proof.Machine.execReadSlope s
  | .detPosPeak => Sys2Proof.Machine.execDetPosPeak s
  | .detNegPeak => Sys2Proof.Machine.execDetNegPeak s
  | .isConnected => Sys2Proof.Machine.execIsConnected s
  | .setFastCoeff imm16 => Sys2Proof.Machine.execSetFastCoeff imm16 s
  | .setSlowCoeff imm16 => Sys2Proof.Machine.execSetSlowCoeff imm16 s
  | .setSlopeCoeff imm16 => Sys2Proof.Machine.execSetSlopeCoeff imm16 s

end Sys2Proof.Machine
end

