-- ==== Sys2Proof/Machine/Step.lean ====
section
/-! DEFINITION. One step: the next command word is decoded and executed to completion (spec/20_memory.md R50). -/

namespace Sys2Proof.Machine

/-- One step (R50, R83, R244): a legal word is executed; an illegal word is refused with status ILLEGAL and the run goes
on (R292); with no word presented TSCORE waits (R271); a spin-wait in progress polls once more (R283). -/
def step (s : State) : Host.Outcome State Fault Refusal :=
  match fetch s with
  | .idle => .next s
  | .polling c t => .next (continueCommand Config.rawSentinel c t)
  | .word w t =>
    match decode w with
    | .ok i => exec i t
    | .error _ => .next (refuseCommand .illegal t)

/-- The host presents the word `w` next (R50; log entry 13). -/
def State.withFetchWord (s : State) (_nbits w : Nat) : State :=
  { s with commands := BitVec.ofNat 20 w :: s.commands, acquiring := none }

end Sys2Proof.Machine
end

