-- ==== Sys2Proof/WellFormed.lean ====
section
/-! DEFINITION. Which command words are legal, by the match and mask columns of spec/30_encoding.md R82. Every term of
Instr is well formed: its only operand is a `u16` and every pattern is legal (R81). What can be ill formed is a word. -/

namespace Sys2Proof

/-- One row of the table of R82. -/
structure EncodingRow where
  mnemonic : String
  pattern : CmdWord
  mask : CmdWord
deriving DecidableEq, Repr

/-- The table of R82, transcribed by its columns `mnemonic`, `match` and `mask`. -/
def encodingTable : List EncodingRow :=
  [⟨"INIT", 0x10000, 0xFFFFF⟩, ⟨"UPDATE", 0x20000, 0xFFFFF⟩, ⟨"READ", 0x30000, 0xFFFFF⟩,
   ⟨"READ_FAST", 0x40000, 0xFFFFF⟩, ⟨"READ_SLOW", 0x50000, 0xFFFFF⟩, ⟨"READ_SLOPE", 0x60000, 0xFFFFF⟩,
   ⟨"DET_POS_PEAK", 0x70000, 0xFFFFF⟩, ⟨"DET_NEG_PEAK", 0x80000, 0xFFFFF⟩, ⟨"IS_CONNECTED", 0x90000, 0xFFFFF⟩,
   ⟨"SET_FAST_COEFF", 0xA0000, 0xF0000⟩, ⟨"SET_SLOW_COEFF", 0xB0000, 0xF0000⟩,
   ⟨"SET_SLOPE_COEFF", 0xC0000, 0xF0000⟩]

/-- A word selects a row when `(w AND mask) = match` (R82). -/
def EncodingRow.selects (r : EncodingRow) (w : CmdWord) : Bool := w &&& r.mask == r.pattern

/-- A word is legal when some row of R82 matches it (R83). -/
def legalWord (w : CmdWord) : Bool := encodingTable.any fun r => r.selects w

/-- The name the table gives a command. -/
def Instr.mnemonic : Instr → String
  | .init => "INIT"
  | .update => "UPDATE"
  | .read => "READ"
  | .readFast => "READ_FAST"
  | .readSlow => "READ_SLOW"
  | .readSlope => "READ_SLOPE"
  | .detPosPeak => "DET_POS_PEAK"
  | .detNegPeak => "DET_NEG_PEAK"
  | .isConnected => "IS_CONNECTED"
  | .setFastCoeff _ => "SET_FAST_COEFF"
  | .setSlowCoeff _ => "SET_SLOW_COEFF"
  | .setSlopeCoeff _ => "SET_SLOPE_COEFF"

end Sys2Proof
end

