-- ==== Sys2Proof/Safety.lean ====
section
/-! DEFINITION. What claims about TSCORE are stated in: the invariants of spec/10_state.md R29 and the rules behind
them, and the named premises of spec/70_reset_and_hazards.md R293. -/

namespace Sys2Proof.Machine

/-! ### What the filters have received -/

/-- The operations one filter has received since reset, newest first, off the record of all (R160; log entry 7). -/
def opsOf (k : FilterSel) (fed : List (FilterSel × FilterOp)) : List FilterOp :=
  (fed.filterMap fun p => if p.1 = k then some p.2 else none).reverse

/-- What a filter has been fed: its operations less the coefficient writes, newest first (R160). -/
def inputsOf : List FilterOp → List FilterOp
  | [] => []
  | .setCoefficients _ :: h => inputsOf h
  | .init seed :: h => .init seed :: inputsOf h
  | .add v :: h => .add v :: inputsOf h
  | .addDouble v :: h => .addDouble v :: inputsOf h

/-- How often a filter has been initialised (R29 b). -/
def initCount : List FilterOp → Nat
  | [] => 0
  | .init _ :: h => initCount h + 1
  | .add _ :: h => initCount h
  | .addDouble _ :: h => initCount h
  | .setCoefficients _ :: h => initCount h

/-- The samples added since the last `init`: on the fast filter, the connected ticks since the entry into Connected
(R131). -/
def addsSinceInit : List FilterOp → Nat
  | [] => 0
  | .init _ :: _ => 0
  | .add _ :: h => addsSinceInit h + 1
  | .addDouble _ :: h => addsSinceInit h
  | .setCoefficients _ :: h => addsSinceInit h

/-- The deltas added since the last `init` (R131). -/
def deltasSinceInit : List FilterOp → Nat
  | [] => 0
  | .init _ :: _ => 0
  | .add _ :: h => deltasSinceInit h
  | .addDouble _ :: h => deltasSinceInit h + 1
  | .setCoefficients _ :: h => deltasSinceInit h

/-- The samples among some operations. -/
def sampleCount : List FilterOp → Nat
  | [] => 0
  | .add _ :: h => sampleCount h + 1
  | .init _ :: h => sampleCount h
  | .addDouble _ :: h => sampleCount h
  | .setCoefficients _ :: h => sampleCount h

/-! ### Invariants -/

/-- Each filter is what `F` makes of the operations recorded for it (R160; log entry 7). -/
def RecordInvariant (s : State) : Prop :=
  ∀ k, filt k s = (opsOf k s.fed).foldr Config.F.apply Config.F.resetState

/-- What the fast filter may have received (R29 d, R160, R203): a seed or a sample is the converted value of a
reading the bus gave, and the reading behind a sample is not the sentinel. -/
def FastFed (s : State) : FilterOp → Prop
  | .init seed => ∃ a raw, Transaction.busReadRaw a raw ∈ s.trace ∧ seed = rescaleSat raw
  | .add v => ∃ a raw, Transaction.busReadRaw a raw ∈ s.trace ∧ raw ≠ Config.rawSentinel ∧ v = rescaleSat raw
  | .addDouble _ => False
  | .setCoefficients _ => True

/-- What the slope filter may have received (R134, R160): seeds 0 and deltas. -/
def SlopeFed : FilterOp → Prop
  | .init seed => seed = 0
  | .add _ => False
  | .addDouble _ => True
  | .setCoefficients _ => True

/-- The filters are fed as R160 says: fast and slow alike, from readings of the bus, never with the sentinel as a
sample; the slope filter with deltas only. -/
structure FeedInvariant (s : State) : Prop where
  same : inputsOf (opsOf .fast s.fed) = inputsOf (opsOf .slow s.fed)
  fast : ∀ op ∈ opsOf .fast s.fed, FastFed s op
  slope : ∀ op ∈ opsOf .slope s.fed, SlopeFed op

/-- The schedule of R131: after `k` connected ticks since the last acquisition the counter and the number of deltas are
fixed by `k`. -/
def ScheduleInvariant (s : State) : Prop :=
  initCount (opsOf .fast s.fed) ≠ 0 →
    deltasSinceInit (opsOf .slope s.fed) = (addsSinceInit (opsOf .fast s.fed) - 1) / 30 ∧
    s.cnt.toNat = if addsSinceInit (opsOf .fast s.fed) = 0 then 31
      else 30 - (addsSinceInit (opsOf .fast s.fed) - 1) % 30

/-- Acquisition (R29 a, b; R190; R273): the filters are initialised together; while Connected they have been
initialised; while Uninitialized nothing has been fed; a reconnect in progress is Disconnected (`acquiring` is log
entry 11). -/
structure AcquisitionInvariant (s : State) : Prop where
  together : ∀ k, initCount (opsOf k s.fed) = initCount (opsOf .fast s.fed)
  connected : s.lstate = .connected → initCount (opsOf .fast s.fed) ≠ 0
  uninitialized : s.lstate = .uninitialized → ∀ k, inputsOf (opsOf k s.fed) = []
  reconnecting : s.acquiring = some .update → s.lstate = .disconnected

/-- The words on the output ports are the words R84 and R86 define: status 3 and code 0 never occur, a response that is
not OK carries data 0, a diagnostic carries `CHAN`. -/
structure OutputInvariant (s : State) : Prop where
  responses : ∀ r ∈ s.responses, ∃ st data, r = responseWord st data ∧ (st ≠ .ok → data = 0)
  diagnostics : ∀ w ∈ diagnostics s, ∃ c, w = diagWord c s.chan

/-- Every conversion request is followed at once by the clock reading it is stamped with (R24). -/
def RequestsStamped (tr : List Transaction) : Prop :=
  ∀ pre post, tr = pre ++ .busRequestConversion :: post → ∃ t rest, post = .clockNow t :: rest

/-- `T_REQ` is the stamp of the most recent conversion request (R24). -/
def HoldsLastStamp (tReq : Millis) (tr : List Transaction) : Prop :=
  .busRequestConversion ∈ tr →
    ∃ pre post, tr = pre ++ .busRequestConversion :: .clockNow tReq :: post ∧ .busRequestConversion ∉ post

/-- The time stamps of R24. -/
structure StampInvariant (s : State) : Prop where
  every : RequestsStamped s.trace
  last : HoldsLastStamp s.tReq s.trace

/-! ### The premises of R293

`OneCommandAtATime` and `NoResetMidCommand` are built in (log entry 13), and `FilterLaws` is the structure
`FilterStage`. A premise about time speaks of a list of times in ms, one before each transaction and one after the
last: the model keeps no time of its own (R291). -/

/-- `rule t a b` holds of each transaction `t`, the time before it and the time after it. -/
def Timeline (rule : Transaction → Nat → Nat → Prop) : List Transaction → List Nat → Prop
  | [], times => ∃ now, times = [now]
  | t :: tr, a :: b :: times => rule t a b ∧ Timeline rule tr (b :: times)
  | _ :: _, _ => False

/-- A clock reading is the time modulo 2^32 (R54). -/
def TellsTime (t : Transaction) (now : Nat) : Prop := ∀ ms, t = .clockNow ms → ms = BitVec.ofNat 32 now

/-- How long a transaction takes at least (R55). -/
def minDuration : Transaction → Nat
  | .delay n => n.toNat
  | _ => 0

/-- The premise `ClockMonotone` (R54, R293): the clock tells a time that does not go back, and less than 2^32 ms pass
between two readings that are compared, which are two with no later request between them (R24). -/
structure ClockMonotone (tr : List Transaction) (times : List Nat) : Prop where
  tells : Timeline (fun t a b => TellsTime t a ∧ a ≤ b) tr times
  near : ∀ i j x y, i < j → tr[i]? = some (.clockNow x) → tr[j]? = some (.clockNow y) →
    (∀ k, i < k → k < j → tr[k]? ≠ some .busRequestConversion) → times.getD j 0 < times.getD i 0 + 2 ^ 32

/-- The premise `DelayAtLeast` (R55, R293): `Delay(n)` returns no sooner than `n` ms later. -/
def DelayAtLeast (tr : List Transaction) (times : List Nat) : Prop :=
  Timeline (fun t a b => a + minDuration t ≤ b) tr times

/-- The premise `DelayExact` (R60, R293), of the transactions of one command: `Delay(n)` takes `n` ms and nothing else
takes time. -/
def DelayExact (tr : List Transaction) (times : List Nat) : Prop :=
  Timeline (fun t a b => b = a + minDuration t) tr times

/-- What `Clock.now` will answer at its `n`-th reading from here on (log entry 1). -/
def clockAt (s : State) (n : Nat) : Millis := s.clockIn.getD n (Config.clockNow (s.clockAsked + n))

/-- The premise `ClockAdvances` (R60, R293): the times of the readings to come pass any bound. -/
def ClockAdvances (times : Nat → Nat) : Prop := ∀ bound, ∃ n, bound < times n

/-- `ClockMonotone` of the readings a spin-wait will make, the last request having been at `t0`: they tell times that do
not go back, and a reading is less than 2^32 ms after the request as long as no earlier one has ended the spin-wait. -/
structure PollsTellTime (s : State) (t0 : Nat) (times : Nat → Nat) : Prop where
  stamp : s.tReq = BitVec.ofNat 32 t0
  tells : ∀ n, clockAt s n = BitVec.ofNat 32 (times n)
  order : ∀ m n, m ≤ n → times m ≤ times n
  start : t0 ≤ times 0
  near : ∀ n, (∀ m < n, times m ≤ t0 + 2000) → times n < t0 + 2 ^ 32

/-- The times of the connected ticks: of the requests that end an UPDATE (R200 step 6), the only ones no delay
follows. -/
def tickTimes : List Transaction → List Nat → List Nat
  | .busRequestConversion :: .clockNow _ :: .delay _ :: tr, _ :: _ :: _ :: times => tickTimes tr times
  | .busRequestConversion :: tr, now :: times => now :: tickTimes tr times
  | _ :: tr, _ :: times => tickTimes tr times
  | _, _ => []

/-- The premise `CadenceOneSecond` (R136, R293): connected ticks are one second apart. -/
def CadenceOneSecond (tr : List Transaction) (times : List Nat) : Prop :=
  ∀ i a b, (tickTimes tr times)[i]? = some a → (tickTimes tr times)[i + 1]? = some b → b = a + 1000

/-- The premise `AcquiredOnce` (R273, R293): among the first `n` steps from `s0` is an IS_CONNECTED that answers 1. -/
def AcquiredOnce (s0 : State) (n : Nat) : Prop :=
  ∃ k s t, k < n ∧ Host.Core.run core k s0 = .next s ∧ step s = .next t ∧ s.acquiring = none ∧
    s.commands.head? = some (encode .isConnected) ∧ t.responses = s.responses ++ [responseWord .ok 1]

/-- The premise `SlopeInRange` (R293): the slope filter's double output is one SlopeScale is exact on. -/
abbrev SlopeInRange (x : Double) : Prop := -17895697 ≤ x.toInt ∧ x.toInt ≤ 17895697

/-- The premise `DeltaInRange` (R293) of one fire: `|cur - REF| < 2^31`. -/
abbrev DeltaInRange (cur ref : Double) : Prop := (cur.toInt - ref.toInt).natAbs < 2 ^ 31

/-! ### What statements are written with -/

/-- The step from `s` to `t` feeds the slope filter one delta (R130). -/
structure Fires (s t : State) : Prop where
  step : step s = .next t
  delta : ∃ d, opsOf .slope t.fed = .addDouble d :: opsOf .slope s.fed

/-- A transaction with the channel field of a diagnostic word cleared: what is left when `CHAN` is not looked at
(R23). -/
def hideChan : Transaction → Transaction
  | .diag w => .diag (w &&& 0x300)
  | t => t

/-- Two states that differ in `CHAN` alone, and in the channel field of the diagnostics emitted (R23). -/
structure SameButChan (s u : State) : Prop where
  state : { u with chan := s.chan, trace := s.trace } = s
  trace : u.trace.map hideChan = s.trace.map hideChan

/-- The seven commands that only read (R175). -/
def isQuery : Instr → Bool
  | .read | .readFast | .readSlow | .readSlope | .detPosPeak | .detNegPeak | .isConnected => true
  | .init | .update | .setFastCoeff _ | .setSlowCoeff _ | .setSlopeCoeff _ => false

/-- What a query answers in a state, by the multiplexer table of R161 and by R210; 0 for the other commands. -/
def queryData (s : State) : Instr → BitVec 16
  | .read => Config.F.readInput s.filtFast
  | .readFast => Config.F.readOutput s.filtFast
  | .readSlow => Config.F.readOutput s.filtSlow
  | .readSlope => slopeScale (Config.F.readOutputDouble s.filtSlope)
  | .detPosPeak => Config.F.detectPosPeak s.filtSlow
  | .detNegPeak => Config.F.detectNegPeak s.filtSlow
  | .isConnected => if s.lstate = .connected then 1 else 0
  | .init | .update | .setFastCoeff _ | .setSlowCoeff _ | .setSlopeCoeff _ => 0

/-- The transactions of failed polls: one reading of the sentinel and one clock reading each (R192 step 6). -/
def failedPolls (addr : Addr) : List Millis → List Transaction
  | [] => []
  | t :: ts => .busReadRaw addr Config.rawSentinel :: .clockNow t :: failedPolls addr ts

/-- The transactions of InitProc steps 1 to 5 (R193 a): `answer` is what `get_address` answered, `t0` the stamp. -/
def openingTransactions (s : State) (answer : Option Addr) (t0 : Millis) : List Transaction :=
  [.busReset, .busGetAddress 0 answer] ++
  (if answer = none then [.diag (diagWord .addrFail s.chan)] else []) ++
  [.busSetResolution (answer.getD s.addr) 12, .busRequestConversion, .clockNow t0, .delay 750]

end Sys2Proof.Machine
end

