-- ==== Sys2Proof/Certificates/Slice0/Obligations.lean ====
section
/-! DEFINITION. The statements for the provers, from the numbered rules of spec/. -/

open Sys2Proof Sys2Proof.Machine

/-! ### Encodings -/

/-- R80 to R82: decoding and encoding agree, both ways, with every operand at every value. -/
def Obligations.DecodeInvertsEncode : Prop :=
  (∀ i : Instr, decode (encode i) = .ok i) ∧
  ∀ (w : CmdWord) (i : Instr), decode w = .ok i → encode i = w

/-- R82: a word selects the row for which `(w AND mask) = match`; at most one row matches, and the decoder reads the
command of that row. -/
def Obligations.DecoderFollowsMatchAndMask : Prop :=
  (∀ w r r', r ∈ encodingTable → r' ∈ encodingTable → r.selects w = true → r'.selects w = true → r = r') ∧
  (∀ w, legalWord w = true ↔ ∃ i, decode w = .ok i) ∧
  ∀ w i, decode w = .ok i → ∃ r ∈ encodingTable, r.selects w = true ∧ r.mnemonic = i.mnemonic

/-- R83: which words are illegal, by their fields. -/
def Obligations.IllegalWordsByFields : Prop :=
  ∀ w : CmdWord, legalWord w = false ↔
    (opField w = 0x0 ∨ opField w = 0xD ∨ opField w = 0xE ∨ opField w = 0xF) ∨
    (0x1 ≤ opField w ∧ opField w ≤ 0x9 ∧ immField w ≠ 0)

/-- R82 and 95_test_vectors.md 2.6: words of the decoder table, one or more of each family. -/
def Obligations.SpecWordsDecode : Prop :=
  decode 0x10000 = .ok .init ∧ decode 0x20000 = .ok .update ∧ decode 0x30000 = .ok .read ∧
  decode 0x60000 = .ok .readSlope ∧ decode 0x90000 = .ok .isConnected ∧
  decode 0xA1234 = .ok (.setFastCoeff 0x1234) ∧ decode 0xB0402 = .ok (.setSlowCoeff 0x0402) ∧
  decode 0xCFFFF = .ok (.setSlopeCoeff 0xFFFF) ∧
  decode 0x00000 = .error (.unassignedOp 0) ∧ decode 0xD0000 = .error (.unassignedOp 0xD) ∧
  decode 0x10001 = .error (.operandNotZero 1 1) ∧ decode 0x2FFFF = .error (.operandNotZero 2 0xFFFF)

/-- R84: bits 17:16 of a response are the status (0 OK, 1 ILLEGAL, 2 SEQ), bits 15:0 the data; R86: bits 9:8 of a
diagnostic are the code (1, 2, 3), bits 7:0 the channel; R21: the codes of LSTATE. -/
def Obligations.OutputWordFields : Prop :=
  (∀ st data, (responseWord st data).extractLsb' 16 2 = (match st with | .ok => 0 | .illegal => 1 | .seq => 2) ∧
    (responseWord st data).extractLsb' 0 16 = data) ∧
  (∀ c chan, (diagWord c chan).extractLsb' 8 2 = (match c with | .addrFail => 1 | .disconnect => 2 | .reconnect => 3) ∧
    (diagWord c chan).extractLsb' 0 8 = chan) ∧
  LState.uninitialized.code = 0 ∧ LState.disconnected.code = 1 ∧ LState.connected.code = 2

/-- R88: the request of each bus transaction, unused fields zero; a reply counts only in the fields the transaction
uses, and a `get_address` with `ok = 0` is recorded as no address (R53; DESIGN CHOICE, log entry 19); both words field
by field. -/
def Obligations.BusWordsFollowTable : Prop :=
  busRequest .busReset = some ⟨0, 0, 0⟩ ∧
  (∀ index answer, busRequest (.busGetAddress index answer) = some ⟨1, index, 0⟩) ∧
  (∀ addr bits, busRequest (.busSetResolution addr bits) = some ⟨2, bits, addr⟩) ∧
  busRequest .busRequestConversion = some ⟨3, 0, 0⟩ ∧
  (∀ addr answer, busRequest (.busReadRaw addr answer) = some ⟨4, 0, addr⟩) ∧
  (∀ r index answer, replyAgrees r (.busGetAddress index answer) = true ↔
    answer = if r.ok = 1 then some r.raddr else none) ∧
  (∀ r addr answer, replyAgrees r (.busReadRaw addr answer) = true ↔ answer = r.raw) ∧
  (∀ r addr bits, replyAgrees r .busReset = true ∧ replyAgrees r (.busSetResolution addr bits) = true ∧
    replyAgrees r .busRequestConversion = true) ∧
  (∀ t q, busRequest t = some q → q.bop.toNat ≤ 4) ∧
  (∀ q : BusRequest, q.word.extractLsb' (8 + Config.addrBits) 3 = q.bop ∧
    q.word.extractLsb' Config.addrBits 8 = q.arg8 ∧ q.word.extractLsb' 0 Config.addrBits = q.addr) ∧
  ∀ r : BusReply, r.word.extractLsb' (Config.addrBits + 32) 1 = r.ok ∧
    r.word.extractLsb' 32 Config.addrBits = r.raddr ∧ r.word.extractLsb' 0 32 = r.raw

/-! ### Arithmetic -/

/-- R113: the saturating converter, for every one of the 2^32 patterns. -/
def Obligations.RescaleClampsThenShifts : Prop :=
  ∀ raw : Raw,
    (raw.toInt ≤ -1024 → (rescaleSat raw).toInt = -32768) ∧
    (-1024 ≤ raw.toInt → raw.toInt ≤ 1023 → (rescaleSat raw).toInt = raw.toInt * 32) ∧
    (1023 ≤ raw.toInt → (rescaleSat raw).toInt = 32736)

/-- R114: (a) the range, (b) monotonic, strictly on [-1024, 1023], (c) exact there, (d) the low five bits are zero and
the image is exactly the 2048 multiples of 32, (e) nothing above 32736. -/
def Obligations.RescaleProperties : Prop :=
  (∀ raw, -32768 ≤ (rescaleSat raw).toInt ∧ (rescaleSat raw).toInt ≤ 32736) ∧
  (∀ r1 r2 : Raw, r1.toInt ≤ r2.toInt → (rescaleSat r1).toInt ≤ (rescaleSat r2).toInt) ∧
  (∀ r1 r2 : Raw, -1024 ≤ r1.toInt → r1.toInt < r2.toInt → r2.toInt ≤ 1023 →
    (rescaleSat r1).toInt < (rescaleSat r2).toInt) ∧
  (∀ raw : Raw, -1024 ≤ raw.toInt → raw.toInt ≤ 1023 → (rescaleSat raw).toInt = 32 * raw.toInt) ∧
  (∀ raw, (rescaleSat raw).extractLsb' 0 5 = 0) ∧
  ∀ v : Single, (∃ raw, rescaleSat raw = v) ↔ ∃ c : Int, -1024 ≤ c ∧ c ≤ 1023 ∧ v.toInt = 32 * c

/-- R116: `Sub32` is the difference modulo 2^32, exact when it fits; R117: `Mul32` by 120 is the product modulo 2^32,
exact on ±17895697; R118: `Asr16` is the floor of the quotient by 65536. -/
def Obligations.WordArithmetic : Prop :=
  (∀ a b : Double, sub32 a b = a - b ∧ (-2 ^ 31 ≤ a.toInt - b.toInt → a.toInt - b.toInt ≤ 2 ^ 31 - 1 →
    (sub32 a b).toInt = a.toInt - b.toInt)) ∧
  (∀ a : Double, mul32 a 120 = a * 120 ∧ (SlopeInRange a → (mul32 a 120).toInt = a.toInt * 120)) ∧
  ∀ a : Double, (asr16 a).toInt = a.toInt / 65536

/-- R135: `SlopeScale` is bits 31:16 of the 32-bit product, `floor(120 x / 65536)` on the exact range; with the corner
cases the rule names. -/
def Obligations.SlopeScaleValue : Prop :=
  (∀ x : Double, slopeScale x = (x * 120).extractLsb' 16 16) ∧
  (∀ x : Double, SlopeInRange x → (slopeScale x).toInt = 120 * x.toInt / 65536) ∧
  (∀ x : Double, 0 ≤ x.toInt → x.toInt < 547 → slopeScale x = 0) ∧
  (slopeScale (BitVec.ofInt 32 17895698)).toInt = -32768 ∧ (slopeScale (BitVec.ofInt 32 (-1))).toInt = -1 ∧
  (slopeScale (1 <<< 16)).toInt = 120

/-- R15: elapsed time is modulo 2^32, right across one wrap of the clock. -/
def Obligations.ElapsedIsModular : Prop :=
  ∀ now t : Millis, ((elapsed now t).toNat : Int) = ((now.toNat : Int) - t.toNat) % 2 ^ 32

/-! ### The Filter Stage -/

/-- R152: after `init` input and output are the seed; R153: after `add` the input is the sample. For every state of the
filter. -/
def Obligations.FilterStageLaws : Prop :=
  (∀ h seed, Config.F.readInput (Config.F.init h seed) = seed ∧ Config.F.readOutput (Config.F.init h seed) = seed) ∧
  ∀ h v, Config.F.readInput (Config.F.add h v) = v

/-- R156, D24: `init` keeps the coefficient pair, so that nothing that is read after any later operations tells in which
order `init` and `set_coefficients` came; R157: a coefficient write changes none of the five read values. -/
def Obligations.CoefficientLaws : Prop :=
  (∀ h p seed ops, Config.F.reads (Config.F.applyAll ops (Config.F.init (Config.F.setCoefficients h p) seed)) =
    Config.F.reads (Config.F.applyAll ops (Config.F.setCoefficients (Config.F.init h seed) p))) ∧
  ∀ h p, Config.F.readInput (Config.F.setCoefficients h p) = Config.F.readInput h ∧
    Config.F.readOutput (Config.F.setCoefficients h p) = Config.F.readOutput h ∧
    Config.F.readOutputDouble (Config.F.setCoefficients h p) = Config.F.readOutputDouble h ∧
    Config.F.detectPosPeak (Config.F.setCoefficients h p) = Config.F.detectPosPeak h ∧
    Config.F.detectNegPeak (Config.F.setCoefficients h p) = Config.F.detectNegPeak h

/-! ### Reads, IS_CONNECTED and coefficient commands -/

/-- R170 to R174, R140: each read command answers, in every state, one read function of one filter with status OK, and
changes nothing else. -/
def Obligations.ReadCommandsAnswer : Prop :=
  ∀ s : State,
    exec .read s = .next { s with responses := s.responses ++ [responseWord .ok (Config.F.readInput s.filtFast)] } ∧
    exec .readFast s = .next { s with
      responses := s.responses ++ [responseWord .ok (Config.F.readOutput s.filtFast)] } ∧
    exec .readSlow s = .next { s with
      responses := s.responses ++ [responseWord .ok (Config.F.readOutput s.filtSlow)] } ∧
    exec .readSlope s = .next { s with
      responses := s.responses ++ [responseWord .ok (slopeScale (Config.F.readOutputDouble s.filtSlope))] } ∧
    exec .detPosPeak s = .next { s with
      responses := s.responses ++ [responseWord .ok (Config.F.detectPosPeak s.filtSlow)] } ∧
    exec .detNegPeak s = .next { s with
      responses := s.responses ++ [responseWord .ok (Config.F.detectNegPeak s.filtSlow)] }

/-- R210: IS_CONNECTED answers 1 while Connected and 0 otherwise, and changes nothing else. -/
def Obligations.IsConnectedAnswers : Prop :=
  ∀ s : State, exec .isConnected s = .next { s with
    responses := s.responses ++ [responseWord .ok (match s.lstate with | .connected => 1 | _ => 0)] }

/-- R176 to R178: each SET command hands its operand to its own filter, answers OK with data 0, and changes nothing
else. -/
def Obligations.SetCommandsWriteOneFilter : Prop :=
  ∀ (s : State) (imm16 : Coeff),
    exec (.setFastCoeff imm16) s = .next { s with
      filtFast := Config.F.setCoefficients s.filtFast imm16, fed := s.fed ++ [(.fast, .setCoefficients imm16)]
      responses := s.responses ++ [responseWord .ok 0] } ∧
    exec (.setSlowCoeff imm16) s = .next { s with
      filtSlow := Config.F.setCoefficients s.filtSlow imm16, fed := s.fed ++ [(.slow, .setCoefficients imm16)]
      responses := s.responses ++ [responseWord .ok 0] } ∧
    exec (.setSlopeCoeff imm16) s = .next { s with
      filtSlope := Config.F.setCoefficients s.filtSlope imm16, fed := s.fed ++ [(.slope, .setCoefficients imm16)]
      responses := s.responses ++ [responseWord .ok 0] }

/-- R157, R288: a SET command changes what no query answers. -/
def Obligations.SetCommandsAreDeferred : Prop :=
  ∀ (s t : State) (i q : Instr) (imm16 : Coeff),
    (i = .setFastCoeff imm16 ∨ i = .setSlowCoeff imm16 ∨ i = .setSlopeCoeff imm16) → isQuery q = true →
    exec i s = .next t →
    exec q t = .next { t with responses := t.responses ++ [responseWord .ok (queryData s q)] }

/-- R175: any run of queries answers each of them from the state it started in and changes nothing else. -/
def Obligations.QueriesLeaveTheMachineAlone : Prop :=
  ∀ (qs : List Instr) (s : State) (rest : List CmdWord),
    (∀ q ∈ qs, isQuery q = true) → s.acquiring = none → s.commands = qs.map encode ++ rest →
    Host.Core.run core qs.length s = .next { s with
      commands := rest, responses := s.responses ++ qs.map fun q => responseWord .ok (queryData s q) }

/-! ### The command port -/

/-- R50, R271, R283: a step executes the command the next word decodes to; with no word it waits; while a spin-wait is
in progress it polls and takes no word. -/
def Obligations.StepRunsTheDecodedCommand : Prop :=
  (∀ (s : State) w rest i, s.acquiring = none → s.commands = w :: rest → decode w = .ok i →
    step s = exec i { s with commands := rest }) ∧
  (∀ s : State, s.acquiring = none → s.commands = [] → step s = .next s) ∧
  ∀ (s : State) c, s.acquiring = some c →
    step s = .next (continueCommand Config.rawSentinel c { s with acquiring := none })

/-- R83, R244, R247: an illegal word is answered with status ILLEGAL and data 0, in every LSTATE, and nothing else
changes. -/
def Obligations.IllegalWordsAreRefused : Prop :=
  ∀ (s : State) w rest, s.acquiring = none → s.commands = w :: rest → legalWord w = false →
    step s = .next { s with commands := rest, responses := s.responses ++ [responseWord .illegal 0] }

/-- R245, R50, R84: no state stops a step; a step ends the command in progress with one response word, or leaves it
polling with none (log entry 11), or has no command to execute and changes nothing; and it only appends to the record of
transactions. -/
def Obligations.EveryStepGoesOn : Prop :=
  ∀ s : State, ∃ t, step s = .next t ∧
    ((∃ r, t.responses = s.responses ++ [r] ∧ t.acquiring = none) ∨
     (t.responses = s.responses ∧ t.acquiring ≠ none) ∨
     (t = s ∧ s.acquiring = none ∧ s.commands = [])) ∧
    ∃ new, t.trace = s.trace ++ new

/-! ### INIT and the acquisition -/

/-- R192, R193 a, R240: INIT when a listed reading ends the spin-wait after `polls.length` failed polls: the
transactions in their order, the second reading as the seed whatever it is, and every field left behind. -/
def Obligations.InitAcquires : Prop :=
  ∀ (s : State) answer addrs raw1 raw2 rs t0 polls t1 cs,
    s.addrIn = answer :: addrs →
    s.rawIn = polls.map (fun _ => Config.rawSentinel) ++ raw1 :: raw2 :: rs → raw1 ≠ Config.rawSentinel →
    s.clockIn = t0 :: polls ++ t1 :: cs → (∀ p ∈ polls, elapsed p t0 ≤ 2000#32) →
    exec .init s = .next { s with
      lstate := .connected, addr := answer.getD s.addr, tReq := t1, cnt := 31
      ref := Config.F.readOutputDouble (Config.F.init s.filtSlow (rescaleSat raw2))
      filtFast := Config.F.init s.filtFast (rescaleSat raw2)
      filtSlow := Config.F.init s.filtSlow (rescaleSat raw2)
      filtSlope := Config.F.init s.filtSlope 0
      fed := s.fed ++ [(.fast, .init (rescaleSat raw2)), (.slow, .init (rescaleSat raw2)), (.slope, .init 0)]
      addrIn := addrs, rawIn := rs, clockIn := cs, addrAsked := s.addrAsked + 1
      rawAsked := s.rawAsked + polls.length + 2, clockAsked := s.clockAsked + polls.length + 2
      trace := s.trace ++ openingTransactions s answer t0 ++ failedPolls (answer.getD s.addr) polls ++
        [.busReadRaw (answer.getD s.addr) raw1, .busRequestConversion, .clockNow t1, .delay 750,
          .busReadRaw (answer.getD s.addr) raw2]
      responses := s.responses ++ [responseWord .ok 0] }

/-- R192, R193 b, R241: INIT when every poll reads the sentinel and the last one is more than 2000 ms after the request:
Disconnected, status OK, no diagnostic of its own, no filter, CNT or REF touched. -/
def Obligations.InitTimesOut : Prop :=
  ∀ (s : State) answer addrs rs t0 polls last cs,
    s.addrIn = answer :: addrs →
    s.rawIn = polls.map (fun _ => Config.rawSentinel) ++ Config.rawSentinel :: rs →
    s.clockIn = t0 :: polls ++ last :: cs → (∀ p ∈ polls, elapsed p t0 ≤ 2000#32) → 2000#32 < elapsed last t0 →
    exec .init s = .next { s with
      lstate := .disconnected, addr := answer.getD s.addr, tReq := t0
      addrIn := addrs, rawIn := rs, clockIn := cs, addrAsked := s.addrAsked + 1
      rawAsked := s.rawAsked + polls.length + 1, clockAsked := s.clockAsked + polls.length + 2
      trace := s.trace ++ openingTransactions s answer t0 ++
        failedPolls (answer.getD s.addr) (polls ++ [last])
      responses := s.responses ++ [responseWord .ok 0] }

/-- R283, U15: while every poll reads the sentinel and no clock reading is more than 2000 ms past T_REQ, the spin-wait
goes on, for any number of polls: no response, no filter touched, no word taken (log entry 11). -/
def Obligations.SpinWaitHasNoPollLimit : Prop :=
  ∀ (polls : List Millis) (s : State) c rs cs,
    s.acquiring = some c → s.rawIn = polls.map (fun _ => Config.rawSentinel) ++ rs → s.clockIn = polls ++ cs →
    (∀ p ∈ polls, elapsed p s.tReq ≤ 2000#32) →
    Host.Core.run core polls.length s = .next { s with
      rawIn := rs, clockIn := cs, rawAsked := s.rawAsked + polls.length, clockAsked := s.clockAsked + polls.length
      trace := s.trace ++ failedPolls s.addr polls }

/-- R192, R194, R200, R201 paths E, F, G, R243, U13: a step that ends a spin-wait in progress (log entry 11) leaves
what the command would have left had it ended at once: inside INIT on a valid reading; inside INIT and inside UPDATE
when the clock is seen more than 2000 ms past T_REQ; inside UPDATE on a valid reading, with a valid re-read (RECONNECT
and connected tick 1) and with the sentinel as the re-read (DISCONNECT, nothing fed). -/
def Obligations.SpinWaitResumesToItsEnd : Prop :=
  (∀ (s : State) raw1 raw2 rs t1 cs,
    s.acquiring = some .init → s.rawIn = raw1 :: raw2 :: rs → raw1 ≠ Config.rawSentinel → s.clockIn = t1 :: cs →
    step s = .next { s with
      acquiring := none, lstate := .connected, tReq := t1, cnt := 31
      ref := Config.F.readOutputDouble (Config.F.init s.filtSlow (rescaleSat raw2))
      filtFast := Config.F.init s.filtFast (rescaleSat raw2)
      filtSlow := Config.F.init s.filtSlow (rescaleSat raw2)
      filtSlope := Config.F.init s.filtSlope 0
      fed := s.fed ++ [(.fast, .init (rescaleSat raw2)), (.slow, .init (rescaleSat raw2)), (.slope, .init 0)]
      rawIn := rs, clockIn := cs, rawAsked := s.rawAsked + 2, clockAsked := s.clockAsked + 1
      trace := s.trace ++ [.busReadRaw s.addr raw1, .busRequestConversion, .clockNow t1, .delay 750,
        .busReadRaw s.addr raw2]
      responses := s.responses ++ [responseWord .ok 0] }) ∧
  (∀ (s : State) c rs last cs,
    s.acquiring = some c → s.rawIn = Config.rawSentinel :: rs → s.clockIn = last :: cs →
    2000#32 < elapsed last s.tReq →
    step s = .next { s with
      acquiring := none, lstate := .disconnected, rawIn := rs, clockIn := cs
      rawAsked := s.rawAsked + 1, clockAsked := s.clockAsked + 1
      trace := s.trace ++ [.busReadRaw s.addr Config.rawSentinel, .clockNow last]
      responses := s.responses ++ [responseWord .ok 0] }) ∧
  (∀ (s : State) raw1 raw2 raw3 rs t1 t2 cs,
    s.acquiring = some .update → s.rawIn = raw1 :: raw2 :: raw3 :: rs → raw1 ≠ Config.rawSentinel →
    raw3 ≠ Config.rawSentinel → s.clockIn = t1 :: t2 :: cs →
    step s = .next { s with
      acquiring := none, lstate := .connected, tReq := t2, cnt := 30
      ref := Config.F.readOutputDouble (Config.F.add (Config.F.init s.filtSlow (rescaleSat raw2)) (rescaleSat raw3))
      filtFast := Config.F.add (Config.F.init s.filtFast (rescaleSat raw2)) (rescaleSat raw3)
      filtSlow := Config.F.add (Config.F.init s.filtSlow (rescaleSat raw2)) (rescaleSat raw3)
      filtSlope := Config.F.init s.filtSlope 0
      fed := s.fed ++ [(.fast, .init (rescaleSat raw2)), (.slow, .init (rescaleSat raw2)), (.slope, .init 0),
        (.fast, .add (rescaleSat raw3)), (.slow, .add (rescaleSat raw3))]
      rawIn := rs, clockIn := cs, rawAsked := s.rawAsked + 3, clockAsked := s.clockAsked + 2
      trace := s.trace ++ [.busReadRaw s.addr raw1, .busRequestConversion, .clockNow t1, .delay 750,
        .busReadRaw s.addr raw2, .busReadRaw s.addr raw3, .diag (diagWord .reconnect s.chan), .busRequestConversion,
        .clockNow t2]
      responses := s.responses ++ [responseWord .ok 0] }) ∧
  ∀ (s : State) raw1 raw2 rs t1 cs,
    s.acquiring = some .update → s.rawIn = raw1 :: raw2 :: Config.rawSentinel :: rs → raw1 ≠ Config.rawSentinel →
    s.clockIn = t1 :: cs →
    step s = .next { s with
      acquiring := none, lstate := .disconnected, tReq := t1, cnt := 31
      ref := Config.F.readOutputDouble (Config.F.init s.filtSlow (rescaleSat raw2))
      filtFast := Config.F.init s.filtFast (rescaleSat raw2)
      filtSlow := Config.F.init s.filtSlow (rescaleSat raw2)
      filtSlope := Config.F.init s.filtSlope 0
      fed := s.fed ++ [(.fast, .init (rescaleSat raw2)), (.slow, .init (rescaleSat raw2)), (.slope, .init 0)]
      rawIn := rs, clockIn := cs, rawAsked := s.rawAsked + 3, clockAsked := s.clockAsked + 1
      trace := s.trace ++ [.busReadRaw s.addr raw1, .busRequestConversion, .clockNow t1, .delay 750,
        .busReadRaw s.addr raw2, .busReadRaw s.addr Config.rawSentinel, .diag (diagWord .disconnect s.chan)]
      responses := s.responses ++ [responseWord .ok 0] }

/-- R283, R60: under `ClockAdvances` and `ClockMonotone` a spin-wait ends, and with it its command (log entry 11). -/
def Obligations.SpinWaitEndsIfTheClockAdvances : Prop :=
  ∀ (s : State) c t0 times,
    s.acquiring = some c → PollsTellTime s t0 times → ClockAdvances times →
    ∃ n t, Host.Core.run core n s = .next t ∧ t.acquiring = none

/-- R193 c: after an INIT that leaves the state Connected, IS_CONNECTED answers 1 and READ, READ_FAST and READ_SLOW all
answer the converted value of the last reading INIT took, for every filter stage. -/
def Obligations.AcquiredSeedIsRead : Prop :=
  ∀ s t : State, exec .init s = .next t → t.lstate = .connected → t.acquiring = none →
    ∃ addr raw pre, t.trace = pre ++ [.busReadRaw addr raw] ∧
      queryData t .isConnected = 1 ∧ queryData t .read = rescaleSat raw ∧
      queryData t .readFast = rescaleSat raw ∧ queryData t .readSlow = rescaleSat raw

/-- R193 b, R241, R64: what INIT leaves unchanged, on every path and for every answer: CHAN and the host's words
always; every filter, CNT and REF unless the acquisition succeeds; the only diagnostic it can emit is ADDR_FAIL. That
it may stay polling with no response is the model's choice (R283; log entry 11). -/
def Obligations.InitFrame : Prop :=
  ∀ s t : State, exec .init s = .next t →
    t.chan = s.chan ∧ t.commands = s.commands ∧
    ((t.acquiring = some .init ∧ t.lstate = s.lstate ∧ t.responses = s.responses ∧
        t.filtFast = s.filtFast ∧ t.filtSlow = s.filtSlow ∧ t.filtSlope = s.filtSlope ∧
        t.cnt = s.cnt ∧ t.ref = s.ref ∧ t.fed = s.fed) ∨
     (t.acquiring = s.acquiring ∧ t.lstate = .disconnected ∧ t.responses = s.responses ++ [responseWord .ok 0] ∧
        t.filtFast = s.filtFast ∧ t.filtSlow = s.filtSlow ∧ t.filtSlope = s.filtSlope ∧
        t.cnt = s.cnt ∧ t.ref = s.ref ∧ t.fed = s.fed) ∨
     (t.acquiring = s.acquiring ∧ t.lstate = .connected ∧ t.responses = s.responses ++ [responseWord .ok 0] ∧
        t.cnt = 31 ∧ t.ref = Config.F.readOutputDouble t.filtSlow ∧
        ∃ seed, t.filtFast = Config.F.init s.filtFast seed ∧ t.filtSlow = Config.F.init s.filtSlow seed ∧
          t.filtSlope = Config.F.init s.filtSlope 0 ∧
          t.fed = s.fed ++ [(.fast, .init seed), (.slow, .init seed), (.slope, .init 0)])) ∧
    ∃ new, t.trace = s.trace ++ new ∧ ∀ w ∈ diagnosticsOf new, w = diagWord .addrFail s.chan

/-- R290: an INIT whose first poll is valid makes transactions whose delays sum to 1500 ms. -/
def Obligations.InitDelaysFifteenHundred : Prop :=
  ∀ (s : State) answer addrs raw1 raw2 rs t0 t1 cs,
    s.addrIn = answer :: addrs → s.rawIn = raw1 :: raw2 :: rs → raw1 ≠ Config.rawSentinel →
    s.clockIn = t0 :: t1 :: cs →
    ∃ t new, exec .init s = .next t ∧ t.trace = s.trace ++ new ∧ delayTotal new = 1500

/-! ### Time -/

/-- R54, R15: of two times less than 2^32 ms apart, elapsed time is the difference of the times, whatever the clock's
wraps in between. -/
def Obligations.ElapsedIsTrueTime : Prop :=
  ∀ a b : Nat, a ≤ b → b < a + 2 ^ 32 → (elapsed (BitVec.ofNat 32 b) (BitVec.ofNat 32 a)).toNat = b - a

/-- R290, R55: transactions take at least the sum of their delays under `DelayAtLeast`, and exactly that under
`DelayExact`. -/
def Obligations.DelaysBoundTheDuration : Prop :=
  ∀ tr first times last, (first :: times).getLast? = some last →
    (DelayAtLeast tr (first :: times) → first + delayTotal tr ≤ last) ∧
    (DelayExact tr (first :: times) → last = first + delayTotal tr)

/-- R55, R291: a delay bounds from below the elapsed time between the clock readings before and after it, under
`DelayAtLeast` and `ClockMonotone`, when no later request lies between them. -/
def Obligations.DelaySeparatesReadings : Prop :=
  ∀ pre a n mid b post times,
    ClockMonotone (pre ++ .clockNow a :: .delay n :: mid ++ .clockNow b :: post) times →
    DelayAtLeast (pre ++ .clockNow a :: .delay n :: mid ++ .clockNow b :: post) times →
    Transaction.busRequestConversion ∉ mid → n.toNat ≤ (elapsed b a).toNat

/-- R131, R136, R200: a step makes as many connected ticks as it adds samples to the fast filter (log entry 7), and what
comes before it does not change how they are counted (log entry 21). `now` is the time at which the step begins. -/
def Obligations.TicksAreSamples : Prop :=
  ∀ s t : State, step s = .next t → ∃ new ops,
    t.trace = s.trace ++ new ∧ opsOf .fast t.fed = ops ++ opsOf .fast s.fed ∧
    ∀ before now after, before.length = s.trace.length → after.length = new.length →
      tickTimes t.trace (before ++ now :: after) =
        tickTimes s.trace (before ++ [now]) ++ tickTimes new (now :: after) ∧
      (tickTimes new (now :: after)).length = sampleCount ops

/-- R131, R136, R280: in any run, from a step that feeds the slope filter a delta to the next such step, with nothing
fed to it in between, there are 31 connected ticks, both ends counted: 30 ticks apart, and 30000 ms apart under
`CadenceOneSecond` (log entries 7 and 21). -/
def Obligations.CadenceSpansTheDecimation : Prop :=
  ∀ (s u v w : State) n new times,
    ScheduleInvariant s → AcquisitionInvariant s → Fires s u → Host.Core.run core n u = .next v →
    inputsOf (opsOf .slope v.fed) = inputsOf (opsOf .slope u.fed) → Fires v w →
    w.trace = s.trace ++ new → times.length = new.length + 1 →
    (tickTimes new times).length = 31 ∧
    (CadenceOneSecond new times → ∃ first last, (tickTimes new times).head? = some first ∧
      (tickTimes new times).getLast? = some last ∧ last = first + 30000)

/-! ### UPDATE -/

/-- R200 step 0, R244: UPDATE while Uninitialized is refused with status SEQ and changes nothing else. -/
def Obligations.UpdateNeedsInit : Prop :=
  ∀ s : State, s.lstate = .uninitialized →
    exec .update s = .next { s with responses := s.responses ++ [responseWord .seq 0] }

/-- R200 step 1, R24, R251: a request at most 5000 ms old is left alone; an older one is issued anew, stamped, and
waited for. `t` is what the clock answers. -/
def Obligations.StaleRequestsAreReissued : Prop :=
  (∀ (s : State) t cs, s.clockIn = t :: cs → elapsed t s.tReq ≤ 5000#32 →
    updateStale s = { s with clockIn := cs, clockAsked := s.clockAsked + 1, trace := s.trace ++ [.clockNow t] }) ∧
  ∀ (s : State) t t' cs, s.clockIn = t :: t' :: cs → 5000#32 < elapsed t s.tReq →
    updateStale s = { s with
      tReq := t', clockIn := cs, clockAsked := s.clockAsked + 2
      trace := s.trace ++ [.clockNow t, .busRequestConversion, .clockNow t', .delay 750] }

/-- R200, R130, R201 path B: UPDATE while Connected with a request at most 5000 ms old and a valid reading: what every
register and filter holds afterwards, for each value `CNT` can have on entry (`CNT` is never 0 there, R130). -/
def Obligations.UpdateNormalTick : Prop :=
  ∀ (s : State) t0 raw rs t1 cs,
    s.lstate = .connected → s.clockIn = t0 :: t1 :: cs → elapsed t0 s.tReq ≤ 5000#32 →
    s.rawIn = raw :: rs → raw ≠ Config.rawSentinel → s.cnt ≠ 0 →
    exec .update s = .next { s with
      filtFast := Config.F.add s.filtFast (rescaleSat raw)
      filtSlow := Config.F.add s.filtSlow (rescaleSat raw)
      filtSlope := if s.cnt = 1 then
          Config.F.addDouble s.filtSlope
            (sub32 (Config.F.readOutputDouble (Config.F.add s.filtSlow (rescaleSat raw))) s.ref)
        else s.filtSlope
      ref := if s.cnt = 31 ∨ s.cnt = 1 then Config.F.readOutputDouble (Config.F.add s.filtSlow (rescaleSat raw))
        else s.ref
      cnt := if s.cnt = 1 then 30 else s.cnt - 1
      fed := s.fed ++ [(.fast, .add (rescaleSat raw)), (.slow, .add (rescaleSat raw))] ++
        if s.cnt = 1 then [(.slope, .addDouble
          (sub32 (Config.F.readOutputDouble (Config.F.add s.filtSlow (rescaleSat raw))) s.ref))] else []
      tReq := t1, rawIn := rs, clockIn := cs, rawAsked := s.rawAsked + 1, clockAsked := s.clockAsked + 2
      trace := s.trace ++ [.clockNow t0, .busReadRaw s.addr raw, .busRequestConversion, .clockNow t1]
      responses := s.responses ++ [responseWord .ok 0] }

/-- R200, R201 path B: UPDATE while Connected on a valid reading: fast and slow filters are fed the converted reading,
the slope step runs after them, the next conversion is requested and stamped. `s1` is the state after step 1. -/
def Obligations.UpdateFeedsAValidReading : Prop :=
  ∀ (s s1 : State) raw rs t cs,
    s.lstate = .connected → s1 = updateStale s → s1.rawIn = raw :: rs → raw ≠ Config.rawSentinel →
    s1.clockIn = t :: cs →
    ∃ u, u = slopeStep { s1 with
        filtFast := Config.F.add s1.filtFast (rescaleSat raw), filtSlow := Config.F.add s1.filtSlow (rescaleSat raw)
        fed := s1.fed ++ [(.fast, .add (rescaleSat raw)), (.slow, .add (rescaleSat raw))] } ∧
      exec .update s = .next { s1 with
        filtFast := u.filtFast, filtSlow := u.filtSlow, filtSlope := u.filtSlope, cnt := u.cnt, ref := u.ref
        fed := u.fed
        tReq := t, rawIn := rs, clockIn := cs, rawAsked := s1.rawAsked + 1, clockAsked := s1.clockAsked + 1
        trace := s1.trace ++ [.busReadRaw s1.addr raw, .busRequestConversion, .clockNow t]
        responses := s1.responses ++ [responseWord .ok 0] }

/-- R242, R201 paths C and D: UPDATE on the sentinel: Disconnected, one DISCONNECT diagnostic on the transition only,
nothing else changed and no conversion requested. `s1` is the state after step 1. -/
def Obligations.UpdateReportsALostSensorOnce : Prop :=
  ∀ (s s1 : State) rs,
    s.lstate ≠ .uninitialized → s1 = updateStale s → s1.rawIn = Config.rawSentinel :: rs →
    exec .update s = .next { s1 with
      lstate := .disconnected, rawIn := rs, rawAsked := s1.rawAsked + 1
      trace := s1.trace ++ [.busReadRaw s1.addr Config.rawSentinel] ++
        (if s.lstate = .connected then [.diag (diagWord .disconnect s.chan)] else [])
      responses := s1.responses ++ [responseWord .ok 0] }

/-- R201 path E, R243: the device is back, InitProc succeeds (`u` is the state it leaves) and the re-read is valid:
RECONNECT is emitted and the reading is connected tick 1 of the new connection. SpinWaitResumesToItsEnd says the same
of an acquisition that ends in a later step (log entry 11). -/
def Obligations.UpdateReconnects : Prop :=
  ∀ (s s1 u : State) raw0 rs0 raw rs t cs,
    s.lstate = .disconnected → s1 = updateStale s → s1.rawIn = raw0 :: rs0 → raw0 ≠ Config.rawSentinel →
    initProc Config.rawSentinel (delay 2000 (takeRaw s1)) = .done u → u.lstate = .connected →
    u.rawIn = raw :: rs → raw ≠ Config.rawSentinel → u.clockIn = t :: cs →
    exec .update s = .next { u with
      filtFast := Config.F.add u.filtFast (rescaleSat raw), filtSlow := Config.F.add u.filtSlow (rescaleSat raw)
      cnt := 30, ref := Config.F.readOutputDouble (Config.F.add u.filtSlow (rescaleSat raw))
      fed := u.fed ++ [(.fast, .add (rescaleSat raw)), (.slow, .add (rescaleSat raw))]
      tReq := t, rawIn := rs, clockIn := cs, rawAsked := u.rawAsked + 1, clockAsked := u.clockAsked + 1
      trace := u.trace ++
        [.busReadRaw u.addr raw, .diag (diagWord .reconnect u.chan), .busRequestConversion, .clockNow t]
      responses := u.responses ++ [responseWord .ok 0] }

/-- R201 paths F and G, R202: the device is back but InitProc times out (`u` is the state it leaves), or succeeds and
the re-read is the sentinel: no filter is fed, the state is Disconnected, and only the second case emits DISCONNECT.
-/
def Obligations.UpdateReconnectCanFail : Prop :=
  ∀ (s s1 u : State) raw0 rs0,
    s.lstate = .disconnected → s1 = updateStale s → s1.rawIn = raw0 :: rs0 → raw0 ≠ Config.rawSentinel →
    initProc Config.rawSentinel (delay 2000 (takeRaw s1)) = .done u →
    (u.lstate ≠ .connected →
      exec .update s = .next { u with responses := u.responses ++ [responseWord .ok 0] }) ∧
    (∀ rs, u.lstate = .connected → u.rawIn = Config.rawSentinel :: rs →
      exec .update s = .next { u with
        lstate := .disconnected, rawIn := rs, rawAsked := u.rawAsked + 1
        trace := u.trace ++ [.busReadRaw u.addr Config.rawSentinel, .diag (diagWord .disconnect u.chan)]
        responses := u.responses ++ [responseWord .ok 0] })

/-- R201, R203, R29: what UPDATE leaves unchanged, on every path and for every answer: CHAN and the host's words
always; the filters, CNT and REF unless a valid reading or an acquisition reaches them; ADDR unless an acquisition
runs. -/
def Obligations.UpdateFrame : Prop :=
  ∀ s t : State, exec .update s = .next t →
    t.chan = s.chan ∧ t.commands = s.commands ∧
    (s.lstate ≠ .disconnected → t.addr = s.addr ∧ t.addrIn = s.addrIn ∧ t.acquiring = s.acquiring) ∧
    ((t.filtFast = s.filtFast ∧ t.filtSlow = s.filtSlow ∧ t.filtSlope = s.filtSlope ∧ t.cnt = s.cnt ∧ t.ref = s.ref ∧
        t.fed = s.fed) ∨
     (s.lstate = .connected ∧ t.lstate = .connected ∧ ∃ v, t.filtFast = Config.F.add s.filtFast v ∧
        t.filtSlow = Config.F.add s.filtSlow v ∧
        (t.filtSlope = s.filtSlope ∨
          t.filtSlope = Config.F.addDouble s.filtSlope (sub32 (Config.F.readOutputDouble t.filtSlow) s.ref))) ∨
     (s.lstate = .disconnected ∧ t.lstate = .disconnected ∧ t.cnt = 31 ∧ ∃ seed,
        t.filtFast = Config.F.init s.filtFast seed ∧ t.filtSlow = Config.F.init s.filtSlow seed ∧
        t.filtSlope = Config.F.init s.filtSlope 0) ∨
     (s.lstate = .disconnected ∧ t.lstate = .connected ∧ t.cnt = 30 ∧ ∃ seed v,
        t.filtFast = Config.F.add (Config.F.init s.filtFast seed) v ∧
        t.filtSlow = Config.F.add (Config.F.init s.filtSlow seed) v ∧
        t.filtSlope = Config.F.init s.filtSlope 0))

/-- R130: `SlopeStep` on each value the counter can hold on entry: the one-time capture at 31, the fire at 1, the
plain decrement in between. -/
def Obligations.SlopeStepByCounter : Prop :=
  (∀ s : State, s.cnt = 31 → slopeStep s = { s with ref := Config.F.readOutputDouble s.filtSlow, cnt := 30 }) ∧
  (∀ s : State, s.cnt = 1 → slopeStep s = { s with
    filtSlope := Config.F.addDouble s.filtSlope (sub32 (Config.F.readOutputDouble s.filtSlow) s.ref)
    fed := s.fed ++ [(.slope, .addDouble (sub32 (Config.F.readOutputDouble s.filtSlow) s.ref))]
    ref := Config.F.readOutputDouble s.filtSlow, cnt := 30 }) ∧
  ∀ s : State, 2 ≤ s.cnt → s.cnt ≤ 30 → slopeStep s = { s with cnt := s.cnt - 1 }

/-- R130, R116: under `DeltaInRange` a fire feeds the slope filter the exact difference of the slow filter's double
output and `REF`. -/
def Obligations.FireFeedsTheExactDelta : Prop :=
  ∀ s : State, s.cnt = 1 → DeltaInRange (Config.F.readOutputDouble s.filtSlow) s.ref →
    ∃ delta : Double, (slopeStep s).filtSlope = Config.F.addDouble s.filtSlope delta ∧
      delta.toInt = (Config.F.readOutputDouble s.filtSlow).toInt - s.ref.toInt

/-! ### Whole-machine rules -/

/-- R23, R50, R281: no step writes CHAN, and a step takes the next word, unless a spin-wait is in progress: then none.
-/
def Obligations.ChannelNeverChanges : Prop :=
  ∀ s t : State, step s = .next t →
    t.chan = s.chan ∧ t.commands = match s.acquiring with
      | none => s.commands.tail
      | some _ => s.commands

/-- R190, R271: no step enters Uninitialized: reset alone does. -/
def Obligations.OnlyResetUninitializes : Prop :=
  ∀ s t : State, step s = .next t → t.lstate = .uninitialized → s.lstate = .uninitialized

/-- R21, R191: LSTATE is changed by INIT and UPDATE alone: every other command leaves it, ADDR, T_REQ, CNT and REF as
they are and makes no transaction. -/
def Obligations.OtherCommandsLeaveTheConnection : Prop :=
  ∀ (i : Instr) (s : State), i ≠ .init → i ≠ .update → ∃ t, exec i s = .next t ∧
    t.lstate = s.lstate ∧ t.addr = s.addr ∧ t.tReq = s.tReq ∧ t.cnt = s.cnt ∧ t.ref = s.ref ∧ t.chan = s.chan ∧
    t.trace = s.trace

/-- R22: ADDR keeps its value through a step or takes an address the bus answered in it. -/
def Obligations.AddressComesFromTheBus : Prop :=
  ∀ s t : State, step s = .next t →
    t.addr = s.addr ∨ ∃ new, t.trace = s.trace ++ new ∧ .busGetAddress 0 (some t.addr) ∈ new

/-- R23, R254: CHAN has no effect on anything but the channel field of the diagnostic words: two states that differ in
no more than that stay so through a step. Both runs meet the same answers, past the lists too (log entry 18). -/
def Obligations.ChannelReachesDiagnosticsOnly : Prop :=
  ∀ s t u : State, SameButChan s u → step s = .next t → ∃ v, step u = .next v ∧ SameButChan t v

/-- R33, R254: what the model records (transactions, diagnostics among them, responses, filter operations) is never read
back: with any other record before it a step does the same and appends the same. Both runs meet the same answers, past
the lists too (log entry 18); the records are log entries 7 and 15. -/
def Obligations.RecordsAreNeverReadBack : Prop :=
  ∀ (s t : State) tr rs fs, step s = .next t →
    ∃ newTr newRs newFs, t.trace = s.trace ++ newTr ∧ t.responses = s.responses ++ newRs ∧ t.fed = s.fed ++ newFs ∧
      step { s with trace := tr, responses := rs, fed := fs } =
        .next { t with trace := tr ++ newTr, responses := rs ++ newRs, fed := fs ++ newFs }

/-- R273: once IS_CONNECTED has answered 1 (`AcquiredOnce`), every filter has been initialised, in every later state. -/
def Obligations.AcquiredOnceMeansInitialised : Prop :=
  ∀ s0 t n, AcquisitionInvariant s0 → AcquiredOnce s0 n → Host.Core.run core n s0 = .next t →
    ∀ k, initCount (opsOf k t.fed) ≠ 0

/-- R170, R273: where the invariants hold and the filters have been initialised, READ answers the converted value of a
reading the bus gave. -/
def Obligations.ReadIsAConvertedReading : Prop :=
  ∀ s : State, RecordInvariant s → FeedInvariant s → initCount (opsOf .fast s.fed) ≠ 0 →
    ∃ a raw, .busReadRaw a raw ∈ s.trace ∧ queryData s .read = rescaleSat raw

/-! ### Invariants -/

/-- R160: in every step each filter is changed as the operations the step records for it say, and in no other way
(log entry 7). -/
def Obligations.RecordInvariantKept : Prop :=
  ∀ s t : State, RecordInvariant s → step s = .next t → RecordInvariant t

/-- R29 d, R160, R203: every step keeps the feed invariant: filters never see the sentinel as a sample (log entry 7). -/
def Obligations.FeedInvariantKept : Prop :=
  ∀ s t : State, FeedInvariant s → step s = .next t → FeedInvariant t

/-- R131: every step keeps the decimation schedule (log entry 7). -/
def Obligations.ScheduleInvariantKept : Prop :=
  ∀ s t : State, ScheduleInvariant s → step s = .next t → ScheduleInvariant t

/-- R29 a, b, R190: every step keeps the acquisition invariant. Its clause on a reconnect in progress is about the
model's field `acquiring` (log entry 11), and its counts are of the model's record of operations (log entry 7). -/
def Obligations.AcquisitionInvariantKept : Prop :=
  ∀ s t : State, AcquisitionInvariant s → step s = .next t → AcquisitionInvariant t

/-- R84, R86: every step keeps the output invariant. -/
def Obligations.OutputInvariantKept : Prop :=
  ∀ s t : State, OutputInvariant s → step s = .next t → OutputInvariant t

/-- R24: every step keeps the time-stamp invariant. -/
def Obligations.StampInvariantKept : Prop :=
  ∀ s t : State, StampInvariant s → step s = .next t → StampInvariant t

/-- The six invariants hold at reset. -/
def Obligations.InvariantsHoldAtReset : Prop :=
  RecordInvariant State.reset ∧ FeedInvariant State.reset ∧ ScheduleInvariant State.reset ∧
  AcquisitionInvariant State.reset ∧ OutputInvariant State.reset ∧ StampInvariant State.reset

/-! ### Reset -/

/-- R34, R270: the values reset gives, for every value of the configuration inputs and from every state; no port is
touched; nothing has been applied to a filter. What was output before stays recorded (log entry 20). -/
def Obligations.ResetValues : Prop :=
  (∀ (s : State) a c, (resetEvent a c s).lstate = .uninitialized ∧ (resetEvent a c s).addr = a ∧
    (resetEvent a c s).chan = c ∧ (resetEvent a c s).filtFast = Config.F.resetState ∧
    (resetEvent a c s).filtSlow = Config.F.resetState ∧
    (resetEvent a c s).filtSlope = Config.F.resetState ∧ (resetEvent a c s).trace = s.trace ∧
    (resetEvent a c s).responses = s.responses ∧ (resetEvent a c s).fed = []) ∧
  State.reset.lstate = .uninitialized ∧ State.reset.addr = Config.cfgAddr ∧ State.reset.chan = Config.cfgChannel ∧
  State.reset.filtFast = Config.F.resetState ∧ State.reset.filtSlow = Config.F.resetState ∧
  State.reset.filtSlope = Config.F.resetState ∧ State.reset.trace = [] ∧
  State.reset.fed = []
end

