-- ==== Sys2Proof/Laws/State.lean ====
section
/-! SUPPORT. What each shared update leaves in each field of State. -/

namespace Sys2Proof.Machine

/-! The port primitives and answers that only record or respond. -/

@[simp] theorem busReset_eq (s : State) : busReset s = record .busReset s := rfl
@[simp] theorem busSetResolution_eq (b : BitVec 8) (s : State) :
    busSetResolution b s = record (.busSetResolution s.addr b) s := rfl
@[simp] theorem busRequestConversion_eq (s : State) : busRequestConversion s = record .busRequestConversion s := rfl
@[simp] theorem delay_eq (n : BitVec 16) (s : State) : delay n s = record (.delay n) s := rfl
@[simp] theorem diagEmit_eq (c : DiagCode) (s : State) : diagEmit c s = record (.diag (diagWord c s.chan)) s := rfl
@[simp] theorem respondOk_eq (d : BitVec 16) (s : State) : respondOk d s = respond .ok d s := rfl
@[simp] theorem refuseCommand_eq (st : Status) (s : State) : refuseCommand st s = respond st 0 s := rfl

/-! record -/

@[simp] theorem record_lstate (t : Transaction) (s : State) : (record t s).lstate = s.lstate := rfl
@[simp] theorem record_addr (t : Transaction) (s : State) : (record t s).addr = s.addr := rfl
@[simp] theorem record_chan (t : Transaction) (s : State) : (record t s).chan = s.chan := rfl
@[simp] theorem record_tReq (t : Transaction) (s : State) : (record t s).tReq = s.tReq := rfl
@[simp] theorem record_cnt (t : Transaction) (s : State) : (record t s).cnt = s.cnt := rfl
@[simp] theorem record_ref (t : Transaction) (s : State) : (record t s).ref = s.ref := rfl
@[simp] theorem record_filtFast (t : Transaction) (s : State) : (record t s).filtFast = s.filtFast := rfl
@[simp] theorem record_filtSlow (t : Transaction) (s : State) : (record t s).filtSlow = s.filtSlow := rfl
@[simp] theorem record_filtSlope (t : Transaction) (s : State) : (record t s).filtSlope = s.filtSlope := rfl
@[simp] theorem record_commands (t : Transaction) (s : State) : (record t s).commands = s.commands := rfl
@[simp] theorem record_addrIn (t : Transaction) (s : State) : (record t s).addrIn = s.addrIn := rfl
@[simp] theorem record_rawIn (t : Transaction) (s : State) : (record t s).rawIn = s.rawIn := rfl
@[simp] theorem record_clockIn (t : Transaction) (s : State) : (record t s).clockIn = s.clockIn := rfl
@[simp] theorem record_addrAsked (t : Transaction) (s : State) : (record t s).addrAsked = s.addrAsked := rfl
@[simp] theorem record_rawAsked (t : Transaction) (s : State) : (record t s).rawAsked = s.rawAsked := rfl
@[simp] theorem record_clockAsked (t : Transaction) (s : State) : (record t s).clockAsked = s.clockAsked := rfl
@[simp] theorem record_acquiring (t : Transaction) (s : State) : (record t s).acquiring = s.acquiring := rfl
@[simp] theorem record_trace (t : Transaction) (s : State) : (record t s).trace = s.trace ++ [t] := rfl
@[simp] theorem record_responses (t : Transaction) (s : State) : (record t s).responses = s.responses := rfl
@[simp] theorem record_fed (t : Transaction) (s : State) : (record t s).fed = s.fed := rfl

/-! respond -/

@[simp] theorem respond_lstate (st : Status) (d : BitVec 16) (s : State) :
    (respond st d s).lstate = s.lstate := rfl
@[simp] theorem respond_addr (st : Status) (d : BitVec 16) (s : State) : (respond st d s).addr = s.addr := rfl
@[simp] theorem respond_chan (st : Status) (d : BitVec 16) (s : State) : (respond st d s).chan = s.chan := rfl
@[simp] theorem respond_tReq (st : Status) (d : BitVec 16) (s : State) : (respond st d s).tReq = s.tReq := rfl
@[simp] theorem respond_cnt (st : Status) (d : BitVec 16) (s : State) : (respond st d s).cnt = s.cnt := rfl
@[simp] theorem respond_ref (st : Status) (d : BitVec 16) (s : State) : (respond st d s).ref = s.ref := rfl
@[simp] theorem respond_filtFast (st : Status) (d : BitVec 16) (s : State) :
    (respond st d s).filtFast = s.filtFast := rfl
@[simp] theorem respond_filtSlow (st : Status) (d : BitVec 16) (s : State) :
    (respond st d s).filtSlow = s.filtSlow := rfl
@[simp] theorem respond_filtSlope (st : Status) (d : BitVec 16) (s : State) :
    (respond st d s).filtSlope = s.filtSlope := rfl
@[simp] theorem respond_commands (st : Status) (d : BitVec 16) (s : State) :
    (respond st d s).commands = s.commands := rfl
@[simp] theorem respond_addrIn (st : Status) (d : BitVec 16) (s : State) :
    (respond st d s).addrIn = s.addrIn := rfl
@[simp] theorem respond_rawIn (st : Status) (d : BitVec 16) (s : State) : (respond st d s).rawIn = s.rawIn := rfl
@[simp] theorem respond_clockIn (st : Status) (d : BitVec 16) (s : State) :
    (respond st d s).clockIn = s.clockIn := rfl
@[simp] theorem respond_addrAsked (st : Status) (d : BitVec 16) (s : State) :
    (respond st d s).addrAsked = s.addrAsked := rfl
@[simp] theorem respond_rawAsked (st : Status) (d : BitVec 16) (s : State) :
    (respond st d s).rawAsked = s.rawAsked := rfl
@[simp] theorem respond_clockAsked (st : Status) (d : BitVec 16) (s : State) :
    (respond st d s).clockAsked = s.clockAsked := rfl
@[simp] theorem respond_acquiring (st : Status) (d : BitVec 16) (s : State) :
    (respond st d s).acquiring = s.acquiring := rfl
@[simp] theorem respond_trace (st : Status) (d : BitVec 16) (s : State) : (respond st d s).trace = s.trace := rfl
@[simp] theorem respond_responses (st : Status) (d : BitVec 16) (s : State) :
    (respond st d s).responses = s.responses ++ [responseWord st d] := rfl
@[simp] theorem respond_fed (st : Status) (d : BitVec 16) (s : State) : (respond st d s).fed = s.fed := rfl

/-! takeAddress -/

@[simp] theorem takeAddress_lstate (s : State) : (takeAddress s).lstate = s.lstate := rfl
@[simp] theorem takeAddress_addr (s : State) : (takeAddress s).addr = s.addr := rfl
@[simp] theorem takeAddress_chan (s : State) : (takeAddress s).chan = s.chan := rfl
@[simp] theorem takeAddress_tReq (s : State) : (takeAddress s).tReq = s.tReq := rfl
@[simp] theorem takeAddress_cnt (s : State) : (takeAddress s).cnt = s.cnt := rfl
@[simp] theorem takeAddress_ref (s : State) : (takeAddress s).ref = s.ref := rfl
@[simp] theorem takeAddress_filtFast (s : State) : (takeAddress s).filtFast = s.filtFast := rfl
@[simp] theorem takeAddress_filtSlow (s : State) : (takeAddress s).filtSlow = s.filtSlow := rfl
@[simp] theorem takeAddress_filtSlope (s : State) : (takeAddress s).filtSlope = s.filtSlope := rfl
@[simp] theorem takeAddress_commands (s : State) : (takeAddress s).commands = s.commands := rfl
@[simp] theorem takeAddress_addrIn (s : State) : (takeAddress s).addrIn = s.addrIn.tail := rfl
@[simp] theorem takeAddress_rawIn (s : State) : (takeAddress s).rawIn = s.rawIn := rfl
@[simp] theorem takeAddress_clockIn (s : State) : (takeAddress s).clockIn = s.clockIn := rfl
@[simp] theorem takeAddress_addrAsked (s : State) : (takeAddress s).addrAsked = s.addrAsked + 1 := rfl
@[simp] theorem takeAddress_rawAsked (s : State) : (takeAddress s).rawAsked = s.rawAsked := rfl
@[simp] theorem takeAddress_clockAsked (s : State) : (takeAddress s).clockAsked = s.clockAsked := rfl
@[simp] theorem takeAddress_acquiring (s : State) : (takeAddress s).acquiring = s.acquiring := rfl
@[simp] theorem takeAddress_trace (s : State) :
    (takeAddress s).trace = s.trace ++ [.busGetAddress 0 (addressAnswer s)] := rfl
@[simp] theorem takeAddress_responses (s : State) : (takeAddress s).responses = s.responses := rfl
@[simp] theorem takeAddress_fed (s : State) : (takeAddress s).fed = s.fed := rfl

/-! takeRaw -/

@[simp] theorem takeRaw_lstate (s : State) : (takeRaw s).lstate = s.lstate := rfl
@[simp] theorem takeRaw_addr (s : State) : (takeRaw s).addr = s.addr := rfl
@[simp] theorem takeRaw_chan (s : State) : (takeRaw s).chan = s.chan := rfl
@[simp] theorem takeRaw_tReq (s : State) : (takeRaw s).tReq = s.tReq := rfl
@[simp] theorem takeRaw_cnt (s : State) : (takeRaw s).cnt = s.cnt := rfl
@[simp] theorem takeRaw_ref (s : State) : (takeRaw s).ref = s.ref := rfl
@[simp] theorem takeRaw_filtFast (s : State) : (takeRaw s).filtFast = s.filtFast := rfl
@[simp] theorem takeRaw_filtSlow (s : State) : (takeRaw s).filtSlow = s.filtSlow := rfl
@[simp] theorem takeRaw_filtSlope (s : State) : (takeRaw s).filtSlope = s.filtSlope := rfl
@[simp] theorem takeRaw_commands (s : State) : (takeRaw s).commands = s.commands := rfl
@[simp] theorem takeRaw_addrIn (s : State) : (takeRaw s).addrIn = s.addrIn := rfl
@[simp] theorem takeRaw_rawIn (s : State) : (takeRaw s).rawIn = s.rawIn.tail := rfl
@[simp] theorem takeRaw_clockIn (s : State) : (takeRaw s).clockIn = s.clockIn := rfl
@[simp] theorem takeRaw_addrAsked (s : State) : (takeRaw s).addrAsked = s.addrAsked := rfl
@[simp] theorem takeRaw_rawAsked (s : State) : (takeRaw s).rawAsked = s.rawAsked + 1 := rfl
@[simp] theorem takeRaw_clockAsked (s : State) : (takeRaw s).clockAsked = s.clockAsked := rfl
@[simp] theorem takeRaw_acquiring (s : State) : (takeRaw s).acquiring = s.acquiring := rfl
@[simp] theorem takeRaw_trace (s : State) :
    (takeRaw s).trace = s.trace ++ [.busReadRaw s.addr (rawAnswer s)] := rfl
@[simp] theorem takeRaw_responses (s : State) : (takeRaw s).responses = s.responses := rfl
@[simp] theorem takeRaw_fed (s : State) : (takeRaw s).fed = s.fed := rfl

/-! takeClock -/

@[simp] theorem takeClock_lstate (s : State) : (takeClock s).lstate = s.lstate := rfl
@[simp] theorem takeClock_addr (s : State) : (takeClock s).addr = s.addr := rfl
@[simp] theorem takeClock_chan (s : State) : (takeClock s).chan = s.chan := rfl
@[simp] theorem takeClock_tReq (s : State) : (takeClock s).tReq = s.tReq := rfl
@[simp] theorem takeClock_cnt (s : State) : (takeClock s).cnt = s.cnt := rfl
@[simp] theorem takeClock_ref (s : State) : (takeClock s).ref = s.ref := rfl
@[simp] theorem takeClock_filtFast (s : State) : (takeClock s).filtFast = s.filtFast := rfl
@[simp] theorem takeClock_filtSlow (s : State) : (takeClock s).filtSlow = s.filtSlow := rfl
@[simp] theorem takeClock_filtSlope (s : State) : (takeClock s).filtSlope = s.filtSlope := rfl
@[simp] theorem takeClock_commands (s : State) : (takeClock s).commands = s.commands := rfl
@[simp] theorem takeClock_addrIn (s : State) : (takeClock s).addrIn = s.addrIn := rfl
@[simp] theorem takeClock_rawIn (s : State) : (takeClock s).rawIn = s.rawIn := rfl
@[simp] theorem takeClock_clockIn (s : State) : (takeClock s).clockIn = s.clockIn.tail := rfl
@[simp] theorem takeClock_addrAsked (s : State) : (takeClock s).addrAsked = s.addrAsked := rfl
@[simp] theorem takeClock_rawAsked (s : State) : (takeClock s).rawAsked = s.rawAsked := rfl
@[simp] theorem takeClock_clockAsked (s : State) : (takeClock s).clockAsked = s.clockAsked + 1 := rfl
@[simp] theorem takeClock_acquiring (s : State) : (takeClock s).acquiring = s.acquiring := rfl
@[simp] theorem takeClock_trace (s : State) : (takeClock s).trace = s.trace ++ [.clockNow (clockAnswer s)] := rfl
@[simp] theorem takeClock_responses (s : State) : (takeClock s).responses = s.responses := rfl
@[simp] theorem takeClock_fed (s : State) : (takeClock s).fed = s.fed := rfl

/-! requestAndStamp -/

@[simp] theorem requestAndStamp_lstate (s : State) : (requestAndStamp s).lstate = s.lstate := rfl
@[simp] theorem requestAndStamp_addr (s : State) : (requestAndStamp s).addr = s.addr := rfl
@[simp] theorem requestAndStamp_chan (s : State) : (requestAndStamp s).chan = s.chan := rfl
@[simp] theorem requestAndStamp_tReq (s : State) : (requestAndStamp s).tReq = clockAnswer s := rfl
@[simp] theorem requestAndStamp_cnt (s : State) : (requestAndStamp s).cnt = s.cnt := rfl
@[simp] theorem requestAndStamp_ref (s : State) : (requestAndStamp s).ref = s.ref := rfl
@[simp] theorem requestAndStamp_filtFast (s : State) : (requestAndStamp s).filtFast = s.filtFast := rfl
@[simp] theorem requestAndStamp_filtSlow (s : State) : (requestAndStamp s).filtSlow = s.filtSlow := rfl
@[simp] theorem requestAndStamp_filtSlope (s : State) : (requestAndStamp s).filtSlope = s.filtSlope := rfl
@[simp] theorem requestAndStamp_commands (s : State) : (requestAndStamp s).commands = s.commands := rfl
@[simp] theorem requestAndStamp_addrIn (s : State) : (requestAndStamp s).addrIn = s.addrIn := rfl
@[simp] theorem requestAndStamp_rawIn (s : State) : (requestAndStamp s).rawIn = s.rawIn := rfl
@[simp] theorem requestAndStamp_clockIn (s : State) : (requestAndStamp s).clockIn = s.clockIn.tail := rfl
@[simp] theorem requestAndStamp_addrAsked (s : State) : (requestAndStamp s).addrAsked = s.addrAsked := rfl
@[simp] theorem requestAndStamp_rawAsked (s : State) : (requestAndStamp s).rawAsked = s.rawAsked := rfl
@[simp] theorem requestAndStamp_clockAsked (s : State) : (requestAndStamp s).clockAsked = s.clockAsked + 1 := rfl
@[simp] theorem requestAndStamp_acquiring (s : State) : (requestAndStamp s).acquiring = s.acquiring := rfl
@[simp] theorem requestAndStamp_trace (s : State) :
    (requestAndStamp s).trace = s.trace ++ [.busRequestConversion, .clockNow (clockAnswer s)] := by
  simp [requestAndStamp, clockAnswer]
@[simp] theorem requestAndStamp_responses (s : State) : (requestAndStamp s).responses = s.responses := rfl
@[simp] theorem requestAndStamp_fed (s : State) : (requestAndStamp s).fed = s.fed := rfl

/-! Answers do not depend on what has been recorded or answered. -/

@[simp] theorem rawAnswer_record (t : Transaction) (s : State) : rawAnswer (record t s) = rawAnswer s := rfl
@[simp] theorem clockAnswer_record (t : Transaction) (s : State) : clockAnswer (record t s) = clockAnswer s := rfl
@[simp] theorem addressAnswer_record (t : Transaction) (s : State) : addressAnswer (record t s) = addressAnswer s := rfl
@[simp] theorem clockAnswer_takeRaw (s : State) : clockAnswer (takeRaw s) = clockAnswer s := rfl
@[simp] theorem clockAnswer_takeAddress (s : State) : clockAnswer (takeAddress s) = clockAnswer s := rfl
@[simp] theorem rawAnswer_takeClock (s : State) : rawAnswer (takeClock s) = rawAnswer s := rfl
@[simp] theorem rawAnswer_requestAndStamp (s : State) : rawAnswer (requestAndStamp s) = rawAnswer s := rfl

/-! operate -/

@[simp] theorem operate_lstate (k : FilterSel) (op : FilterOp) (s : State) :
    (operate k op s).lstate = s.lstate := by cases k <;> rfl
@[simp] theorem operate_addr (k : FilterSel) (op : FilterOp) (s : State) :
    (operate k op s).addr = s.addr := by cases k <;> rfl
@[simp] theorem operate_chan (k : FilterSel) (op : FilterOp) (s : State) :
    (operate k op s).chan = s.chan := by cases k <;> rfl
@[simp] theorem operate_tReq (k : FilterSel) (op : FilterOp) (s : State) :
    (operate k op s).tReq = s.tReq := by cases k <;> rfl
@[simp] theorem operate_cnt (k : FilterSel) (op : FilterOp) (s : State) :
    (operate k op s).cnt = s.cnt := by cases k <;> rfl
@[simp] theorem operate_ref (k : FilterSel) (op : FilterOp) (s : State) :
    (operate k op s).ref = s.ref := by cases k <;> rfl
@[simp] theorem operate_filtFast (k : FilterSel) (op : FilterOp) (s : State) :
    (operate k op s).filtFast = if k = .fast then Config.F.apply op s.filtFast else s.filtFast := by cases k <;> rfl
@[simp] theorem operate_filtSlow (k : FilterSel) (op : FilterOp) (s : State) :
    (operate k op s).filtSlow = if k = .slow then Config.F.apply op s.filtSlow else s.filtSlow := by cases k <;> rfl
@[simp] theorem operate_filtSlope (k : FilterSel) (op : FilterOp) (s : State) :
    (operate k op s).filtSlope = if k = .slope then Config.F.apply op s.filtSlope else s.filtSlope := by
  cases k <;> rfl
@[simp] theorem operate_commands (k : FilterSel) (op : FilterOp) (s : State) :
    (operate k op s).commands = s.commands := by cases k <;> rfl
@[simp] theorem operate_addrIn (k : FilterSel) (op : FilterOp) (s : State) :
    (operate k op s).addrIn = s.addrIn := by cases k <;> rfl
@[simp] theorem operate_rawIn (k : FilterSel) (op : FilterOp) (s : State) :
    (operate k op s).rawIn = s.rawIn := by cases k <;> rfl
@[simp] theorem operate_clockIn (k : FilterSel) (op : FilterOp) (s : State) :
    (operate k op s).clockIn = s.clockIn := by cases k <;> rfl
@[simp] theorem operate_addrAsked (k : FilterSel) (op : FilterOp) (s : State) :
    (operate k op s).addrAsked = s.addrAsked := by cases k <;> rfl
@[simp] theorem operate_rawAsked (k : FilterSel) (op : FilterOp) (s : State) :
    (operate k op s).rawAsked = s.rawAsked := by cases k <;> rfl
@[simp] theorem operate_clockAsked (k : FilterSel) (op : FilterOp) (s : State) :
    (operate k op s).clockAsked = s.clockAsked := by cases k <;> rfl
@[simp] theorem operate_acquiring (k : FilterSel) (op : FilterOp) (s : State) :
    (operate k op s).acquiring = s.acquiring := by cases k <;> rfl
@[simp] theorem operate_trace (k : FilterSel) (op : FilterOp) (s : State) :
    (operate k op s).trace = s.trace := by cases k <;> rfl
@[simp] theorem operate_responses (k : FilterSel) (op : FilterOp) (s : State) :
    (operate k op s).responses = s.responses := by cases k <;> rfl
@[simp] theorem operate_fed (k : FilterSel) (op : FilterOp) (s : State) :
    (operate k op s).fed = s.fed ++ [(k, op)] := rfl

/-! slopeCapture -/

@[simp] theorem slopeCapture_lstate (s : State) :
    (slopeCapture s).lstate = s.lstate := by unfold slopeCapture; split <;> rfl
@[simp] theorem slopeCapture_addr (s : State) :
    (slopeCapture s).addr = s.addr := by unfold slopeCapture; split <;> rfl
@[simp] theorem slopeCapture_chan (s : State) :
    (slopeCapture s).chan = s.chan := by unfold slopeCapture; split <;> rfl
@[simp] theorem slopeCapture_tReq (s : State) :
    (slopeCapture s).tReq = s.tReq := by unfold slopeCapture; split <;> rfl
@[simp] theorem slopeCapture_cnt (s : State) :
    (slopeCapture s).cnt = s.cnt := by unfold slopeCapture; split <;> rfl
@[simp] theorem slopeCapture_filtFast (s : State) :
    (slopeCapture s).filtFast = s.filtFast := by unfold slopeCapture; split <;> rfl
@[simp] theorem slopeCapture_filtSlow (s : State) :
    (slopeCapture s).filtSlow = s.filtSlow := by unfold slopeCapture; split <;> rfl
@[simp] theorem slopeCapture_filtSlope (s : State) :
    (slopeCapture s).filtSlope = s.filtSlope := by unfold slopeCapture; split <;> rfl
@[simp] theorem slopeCapture_commands (s : State) :
    (slopeCapture s).commands = s.commands := by unfold slopeCapture; split <;> rfl
@[simp] theorem slopeCapture_addrIn (s : State) :
    (slopeCapture s).addrIn = s.addrIn := by unfold slopeCapture; split <;> rfl
@[simp] theorem slopeCapture_rawIn (s : State) :
    (slopeCapture s).rawIn = s.rawIn := by unfold slopeCapture; split <;> rfl
@[simp] theorem slopeCapture_clockIn (s : State) :
    (slopeCapture s).clockIn = s.clockIn := by unfold slopeCapture; split <;> rfl
@[simp] theorem slopeCapture_addrAsked (s : State) :
    (slopeCapture s).addrAsked = s.addrAsked := by unfold slopeCapture; split <;> rfl
@[simp] theorem slopeCapture_rawAsked (s : State) :
    (slopeCapture s).rawAsked = s.rawAsked := by unfold slopeCapture; split <;> rfl
@[simp] theorem slopeCapture_clockAsked (s : State) :
    (slopeCapture s).clockAsked = s.clockAsked := by unfold slopeCapture; split <;> rfl
@[simp] theorem slopeCapture_acquiring (s : State) :
    (slopeCapture s).acquiring = s.acquiring := by unfold slopeCapture; split <;> rfl
@[simp] theorem slopeCapture_trace (s : State) :
    (slopeCapture s).trace = s.trace := by unfold slopeCapture; split <;> rfl
@[simp] theorem slopeCapture_responses (s : State) :
    (slopeCapture s).responses = s.responses := by unfold slopeCapture; split <;> rfl
@[simp] theorem slopeCapture_fed (s : State) :
    (slopeCapture s).fed = s.fed := by unfold slopeCapture; split <;> rfl

/-! slopeStep -/

@[simp] theorem slopeStep_lstate (s : State) :
    (slopeStep s).lstate = s.lstate := by
  unfold slopeStep slopeCapture slopeFire; dsimp only; split <;> split <;> rfl
@[simp] theorem slopeStep_addr (s : State) :
    (slopeStep s).addr = s.addr := by
  unfold slopeStep slopeCapture slopeFire; dsimp only; split <;> split <;> rfl
@[simp] theorem slopeStep_chan (s : State) :
    (slopeStep s).chan = s.chan := by
  unfold slopeStep slopeCapture slopeFire; dsimp only; split <;> split <;> rfl
@[simp] theorem slopeStep_tReq (s : State) :
    (slopeStep s).tReq = s.tReq := by
  unfold slopeStep slopeCapture slopeFire; dsimp only; split <;> split <;> rfl
@[simp] theorem slopeStep_filtFast (s : State) :
    (slopeStep s).filtFast = s.filtFast := by
  unfold slopeStep slopeCapture slopeFire; dsimp only; split <;> split <;> rfl
@[simp] theorem slopeStep_filtSlow (s : State) :
    (slopeStep s).filtSlow = s.filtSlow := by
  unfold slopeStep slopeCapture slopeFire; dsimp only; split <;> split <;> rfl
@[simp] theorem slopeStep_commands (s : State) :
    (slopeStep s).commands = s.commands := by
  unfold slopeStep slopeCapture slopeFire; dsimp only; split <;> split <;> rfl
@[simp] theorem slopeStep_addrIn (s : State) :
    (slopeStep s).addrIn = s.addrIn := by
  unfold slopeStep slopeCapture slopeFire; dsimp only; split <;> split <;> rfl
@[simp] theorem slopeStep_rawIn (s : State) :
    (slopeStep s).rawIn = s.rawIn := by
  unfold slopeStep slopeCapture slopeFire; dsimp only; split <;> split <;> rfl
@[simp] theorem slopeStep_clockIn (s : State) :
    (slopeStep s).clockIn = s.clockIn := by
  unfold slopeStep slopeCapture slopeFire; dsimp only; split <;> split <;> rfl
@[simp] theorem slopeStep_addrAsked (s : State) :
    (slopeStep s).addrAsked = s.addrAsked := by
  unfold slopeStep slopeCapture slopeFire; dsimp only; split <;> split <;> rfl
@[simp] theorem slopeStep_rawAsked (s : State) :
    (slopeStep s).rawAsked = s.rawAsked := by
  unfold slopeStep slopeCapture slopeFire; dsimp only; split <;> split <;> rfl
@[simp] theorem slopeStep_clockAsked (s : State) :
    (slopeStep s).clockAsked = s.clockAsked := by
  unfold slopeStep slopeCapture slopeFire; dsimp only; split <;> split <;> rfl
@[simp] theorem slopeStep_acquiring (s : State) :
    (slopeStep s).acquiring = s.acquiring := by
  unfold slopeStep slopeCapture slopeFire; dsimp only; split <;> split <;> rfl
@[simp] theorem slopeStep_trace (s : State) :
    (slopeStep s).trace = s.trace := by
  unfold slopeStep slopeCapture slopeFire; dsimp only; split <;> split <;> rfl
@[simp] theorem slopeStep_responses (s : State) :
    (slopeStep s).responses = s.responses := by
  unfold slopeStep slopeCapture slopeFire; dsimp only; split <;> split <;> rfl

/-- Above 0 the counter is decremented (R130). -/
theorem counterAfter_of_ne_zero {c : BitVec 8} (h : c ≠ 0) : counterAfter c = c - 1#8 := if_neg h

/-- Above 0 the counter reaches 0 from 1 alone (R130). -/
theorem counterAfter_eq_zero {c : BitVec 8} (h : c ≠ 0) : counterAfter c = 0#8 ↔ c = 1#8 := by
  rw [counterAfter_of_ne_zero h]
  refine ⟨fun e => ?_, fun e => by rw [e]; rfl⟩
  have := congrArg (· + 1) e
  simpa using this

/-- The first connected tick leaves 30 (R131). -/
@[simp] theorem counterAfter_first : counterAfter 31#8 = 30#8 := by decide

/-- The counter after a connected tick: reloaded to 30 on a fire, else decremented (R130). -/
@[simp] theorem slopeStep_cnt (s : State) :
    (slopeStep s).cnt = if counterAfter s.cnt = 0 then 30 else counterAfter s.cnt := by
  by_cases h : counterAfter s.cnt = 0
  · simp only [slopeStep, slopeFire, h, if_true, Params.decim]
  · simp only [slopeStep, h, if_false]

/-- The reference after a connected tick: taken anew on the one-time capture and on a fire (R130). -/
@[simp] theorem slopeStep_ref (s : State) :
    (slopeStep s).ref =
      if s.cnt = 31 ∨ counterAfter s.cnt = 0 then Config.F.readOutputDouble s.filtSlow else s.ref := by
  by_cases h : counterAfter s.cnt = 0
  · simp [slopeStep, slopeFire, h]
  · simp only [slopeStep, h, if_false, or_false, slopeCapture, Params.cntFirst]
    by_cases h31 : s.cnt = 31 <;> simp only [h31, if_true, if_false]

/-- What the slope filter receives in a connected tick: the delta on a fire, else nothing (R130). -/
def slopeDelta (s : State) : List FilterOp :=
  if counterAfter s.cnt = 0 then [.addDouble (sub32 (Config.F.readOutputDouble s.filtSlow) s.ref)] else []

/-- The capture and the fire do not meet (R130). -/
theorem slopeCapture_of_fire {s : State} (h : counterAfter s.cnt = 0) : slopeCapture s = s := by
  have h31 : s.cnt ≠ 31 := fun e => by rw [e] at h; exact absurd h (by decide)
  exact if_neg h31

/-- The slope filter after a connected tick: fed the delta on a fire (R130). -/
@[simp] theorem slopeStep_filtSlope (s : State) :
    (slopeStep s).filtSlope = if counterAfter s.cnt = 0 then
      Config.F.addDouble s.filtSlope (sub32 (Config.F.readOutputDouble s.filtSlow) s.ref) else s.filtSlope := by
  by_cases h : counterAfter s.cnt = 0
  · simp only [slopeStep, slopeFire, slopeCapture_of_fire h, h, if_true]
    rfl
  · simp only [slopeStep, h, if_false, slopeCapture_filtSlope]

/-- What a connected tick's slope step adds to the record (R130, R160). -/
@[simp] theorem slopeStep_fed (s : State) :
    (slopeStep s).fed = s.fed ++ (slopeDelta s).map fun op => (.slope, op) := by
  by_cases h : counterAfter s.cnt = 0
  · simp only [slopeStep, slopeFire, slopeCapture_of_fire h, h, if_true, slopeDelta]
    rfl
  · simp only [slopeStep, h, if_false, slopeDelta, slopeCapture_fed, List.map_nil, List.append_nil]

/-! feedFilters -/

@[simp] theorem feedFilters_lstate (v : Single) (s : State) : (feedFilters v s).lstate = s.lstate := rfl
@[simp] theorem feedFilters_addr (v : Single) (s : State) : (feedFilters v s).addr = s.addr := rfl
@[simp] theorem feedFilters_chan (v : Single) (s : State) : (feedFilters v s).chan = s.chan := rfl
@[simp] theorem feedFilters_tReq (v : Single) (s : State) : (feedFilters v s).tReq = s.tReq := rfl
@[simp] theorem feedFilters_cnt (v : Single) (s : State) : (feedFilters v s).cnt = s.cnt := rfl
@[simp] theorem feedFilters_ref (v : Single) (s : State) : (feedFilters v s).ref = s.ref := rfl
@[simp] theorem feedFilters_filtFast (v : Single) (s : State) :
    (feedFilters v s).filtFast = Config.F.add s.filtFast v := rfl
@[simp] theorem feedFilters_filtSlow (v : Single) (s : State) :
    (feedFilters v s).filtSlow = Config.F.add s.filtSlow v := rfl
@[simp] theorem feedFilters_filtSlope (v : Single) (s : State) : (feedFilters v s).filtSlope = s.filtSlope := rfl
@[simp] theorem feedFilters_commands (v : Single) (s : State) : (feedFilters v s).commands = s.commands := rfl
@[simp] theorem feedFilters_addrIn (v : Single) (s : State) : (feedFilters v s).addrIn = s.addrIn := rfl
@[simp] theorem feedFilters_rawIn (v : Single) (s : State) : (feedFilters v s).rawIn = s.rawIn := rfl
@[simp] theorem feedFilters_clockIn (v : Single) (s : State) : (feedFilters v s).clockIn = s.clockIn := rfl
@[simp] theorem feedFilters_addrAsked (v : Single) (s : State) : (feedFilters v s).addrAsked = s.addrAsked := rfl
@[simp] theorem feedFilters_rawAsked (v : Single) (s : State) : (feedFilters v s).rawAsked = s.rawAsked := rfl
@[simp] theorem feedFilters_clockAsked (v : Single) (s : State) :
    (feedFilters v s).clockAsked = s.clockAsked := rfl
@[simp] theorem feedFilters_acquiring (v : Single) (s : State) : (feedFilters v s).acquiring = s.acquiring := rfl
@[simp] theorem feedFilters_trace (v : Single) (s : State) : (feedFilters v s).trace = s.trace := rfl
@[simp] theorem feedFilters_responses (v : Single) (s : State) : (feedFilters v s).responses = s.responses := rfl
@[simp] theorem feedFilters_fed (v : Single) (s : State) :
    (feedFilters v s).fed = s.fed ++ [(.fast, .add v), (.slow, .add v)] := by simp [feedFilters]

/-! seedFilters -/

@[simp] theorem seedFilters_lstate (v : Single) (s : State) : (seedFilters v s).lstate = s.lstate := rfl
@[simp] theorem seedFilters_addr (v : Single) (s : State) : (seedFilters v s).addr = s.addr := rfl
@[simp] theorem seedFilters_chan (v : Single) (s : State) : (seedFilters v s).chan = s.chan := rfl
@[simp] theorem seedFilters_tReq (v : Single) (s : State) : (seedFilters v s).tReq = s.tReq := rfl
@[simp] theorem seedFilters_cnt (v : Single) (s : State) : (seedFilters v s).cnt = s.cnt := rfl
@[simp] theorem seedFilters_ref (v : Single) (s : State) : (seedFilters v s).ref = s.ref := rfl
@[simp] theorem seedFilters_filtFast (v : Single) (s : State) :
    (seedFilters v s).filtFast = Config.F.init s.filtFast v := rfl
@[simp] theorem seedFilters_filtSlow (v : Single) (s : State) :
    (seedFilters v s).filtSlow = Config.F.init s.filtSlow v := rfl
@[simp] theorem seedFilters_filtSlope (v : Single) (s : State) :
    (seedFilters v s).filtSlope = Config.F.init s.filtSlope 0 := rfl
@[simp] theorem seedFilters_commands (v : Single) (s : State) : (seedFilters v s).commands = s.commands := rfl
@[simp] theorem seedFilters_addrIn (v : Single) (s : State) : (seedFilters v s).addrIn = s.addrIn := rfl
@[simp] theorem seedFilters_rawIn (v : Single) (s : State) : (seedFilters v s).rawIn = s.rawIn := rfl
@[simp] theorem seedFilters_clockIn (v : Single) (s : State) : (seedFilters v s).clockIn = s.clockIn := rfl
@[simp] theorem seedFilters_addrAsked (v : Single) (s : State) : (seedFilters v s).addrAsked = s.addrAsked := rfl
@[simp] theorem seedFilters_rawAsked (v : Single) (s : State) : (seedFilters v s).rawAsked = s.rawAsked := rfl
@[simp] theorem seedFilters_clockAsked (v : Single) (s : State) :
    (seedFilters v s).clockAsked = s.clockAsked := rfl
@[simp] theorem seedFilters_acquiring (v : Single) (s : State) : (seedFilters v s).acquiring = s.acquiring := rfl
@[simp] theorem seedFilters_trace (v : Single) (s : State) : (seedFilters v s).trace = s.trace := rfl
@[simp] theorem seedFilters_responses (v : Single) (s : State) : (seedFilters v s).responses = s.responses := rfl
@[simp] theorem seedFilters_fed (v : Single) (s : State) :
    (seedFilters v s).fed = s.fed ++ [(.fast, .init v), (.slow, .init v), (.slope, .init 0)] := by
  simp [seedFilters]

/-! connect -/

@[simp] theorem connect_lstate (v : Single) (s : State) : (connect v s).lstate = .connected := rfl
@[simp] theorem connect_addr (v : Single) (s : State) : (connect v s).addr = s.addr := rfl
@[simp] theorem connect_chan (v : Single) (s : State) : (connect v s).chan = s.chan := rfl
@[simp] theorem connect_tReq (v : Single) (s : State) : (connect v s).tReq = s.tReq := rfl
@[simp] theorem connect_cnt (v : Single) (s : State) : (connect v s).cnt = 31 := rfl
@[simp] theorem connect_ref (v : Single) (s : State) :
    (connect v s).ref = Config.F.readOutputDouble (Config.F.init s.filtSlow v) := rfl
@[simp] theorem connect_filtFast (v : Single) (s : State) :
    (connect v s).filtFast = Config.F.init s.filtFast v := rfl
@[simp] theorem connect_filtSlow (v : Single) (s : State) :
    (connect v s).filtSlow = Config.F.init s.filtSlow v := rfl
@[simp] theorem connect_filtSlope (v : Single) (s : State) :
    (connect v s).filtSlope = Config.F.init s.filtSlope 0 := rfl
@[simp] theorem connect_commands (v : Single) (s : State) : (connect v s).commands = s.commands := rfl
@[simp] theorem connect_addrIn (v : Single) (s : State) : (connect v s).addrIn = s.addrIn := rfl
@[simp] theorem connect_rawIn (v : Single) (s : State) : (connect v s).rawIn = s.rawIn := rfl
@[simp] theorem connect_clockIn (v : Single) (s : State) : (connect v s).clockIn = s.clockIn := rfl
@[simp] theorem connect_addrAsked (v : Single) (s : State) : (connect v s).addrAsked = s.addrAsked := rfl
@[simp] theorem connect_rawAsked (v : Single) (s : State) : (connect v s).rawAsked = s.rawAsked := rfl
@[simp] theorem connect_clockAsked (v : Single) (s : State) : (connect v s).clockAsked = s.clockAsked := rfl
@[simp] theorem connect_acquiring (v : Single) (s : State) : (connect v s).acquiring = s.acquiring := rfl
@[simp] theorem connect_trace (v : Single) (s : State) : (connect v s).trace = s.trace := rfl
@[simp] theorem connect_responses (v : Single) (s : State) : (connect v s).responses = s.responses := rfl
@[simp] theorem connect_fed (v : Single) (s : State) :
    (connect v s).fed = s.fed ++ [(.fast, .init v), (.slow, .init v), (.slope, .init 0)] := by simp [connect]

end Sys2Proof.Machine
end

