-- ==== Sys2Proof/Laws/Filter.lean ====
section
/-! SUPPORT. The laws of the Filter Stage read by read, and the record of what a filter has received
(spec/42_filter_stage.md R151 to R160). -/

namespace Sys2Proof.Machine

/-! ### The laws of `F` -/

@[simp] theorem readInput_init (h : FilterState) (seed : Single) : Config.F.readInput (Config.F.init h seed) = seed :=
  Config.F.input_init h seed
@[simp] theorem readOutput_init (h : FilterState) (seed : Single) : Config.F.readOutput (Config.F.init h seed) = seed :=
  Config.F.output_init h seed
@[simp] theorem readInput_add (h : FilterState) (v : Single) : Config.F.readInput (Config.F.add h v) = v :=
  Config.F.input_add h v
@[simp] theorem readInput_setCoefficients (h : FilterState) (p : Coeff) :
    Config.F.readInput (Config.F.setCoefficients h p) = Config.F.readInput h :=
  congrArg FilterReads.input (Config.F.reads_setCoefficients h p)
@[simp] theorem readOutput_setCoefficients (h : FilterState) (p : Coeff) :
    Config.F.readOutput (Config.F.setCoefficients h p) = Config.F.readOutput h :=
  congrArg FilterReads.output (Config.F.reads_setCoefficients h p)
@[simp] theorem readOutputDouble_setCoefficients (h : FilterState) (p : Coeff) :
    Config.F.readOutputDouble (Config.F.setCoefficients h p) = Config.F.readOutputDouble h :=
  congrArg FilterReads.outputDouble (Config.F.reads_setCoefficients h p)
@[simp] theorem detectPosPeak_setCoefficients (h : FilterState) (p : Coeff) :
    Config.F.detectPosPeak (Config.F.setCoefficients h p) = Config.F.detectPosPeak h :=
  congrArg FilterReads.posPeak (Config.F.reads_setCoefficients h p)
@[simp] theorem detectNegPeak_setCoefficients (h : FilterState) (p : Coeff) :
    Config.F.detectNegPeak (Config.F.setCoefficients h p) = Config.F.detectNegPeak h :=
  congrArg FilterReads.negPeak (Config.F.reads_setCoefficients h p)

@[simp] theorem apply_init (h : FilterState) (seed : Single) :
    Config.F.apply (.init seed) h = Config.F.init h seed := rfl
@[simp] theorem apply_add (h : FilterState) (v : Single) : Config.F.apply (.add v) h = Config.F.add h v := rfl
@[simp] theorem apply_addDouble (h : FilterState) (v : Double) :
    Config.F.apply (.addDouble v) h = Config.F.addDouble h v := rfl
@[simp] theorem apply_setCoefficients (h : FilterState) (p : Coeff) :
    Config.F.apply (.setCoefficients p) h = Config.F.setCoefficients h p := rfl

/-! ### The record of one filter -/

@[simp] theorem opsOf_nil (k : FilterSel) : opsOf k [] = [] := rfl

@[simp] theorem opsOf_append (k : FilterSel) (a b : List (FilterSel × FilterOp)) :
    opsOf k (a ++ b) = opsOf k b ++ opsOf k a := by
  simp [opsOf]

theorem opsOf_singleton (k k' : FilterSel) (op : FilterOp) :
    opsOf k [(k', op)] = if k' = k then [op] else [] := by
  by_cases h : k' = k <;> simp [opsOf, h]

/-- The operations of one filter, entry by entry. -/
@[simp] theorem opsOf_cons (k k' : FilterSel) (op : FilterOp) (b : List (FilterSel × FilterOp)) :
    opsOf k ((k', op) :: b) = opsOf k b ++ if k' = k then [op] else [] := by
  rw [← List.singleton_append, opsOf_append, opsOf_singleton]

/-- What is recorded for the slope filter alone. -/
theorem opsOf_map_slope (k : FilterSel) (ops : List FilterOp) :
    opsOf k (ops.map fun op => (.slope, op)) = if k = .slope then ops.reverse else [] := by
  induction ops with
  | nil => simp
  | cons op ops ih => cases k <;> simp_all

@[simp] theorem opsOf_slopeDelta (k : FilterSel) (s : State) :
    opsOf k ((slopeDelta s).map fun op => (.slope, op)) = if k = .slope then slopeDelta s else [] := by
  have h : (slopeDelta s).reverse = slopeDelta s := by
    unfold slopeDelta
    split <;> rfl
  rw [opsOf_map_slope, h]

end Sys2Proof.Machine
end

