-- ==== Sys2Proof/Laws/Ops.lean ====
section
/-! SUPPORT. One lemma per shared operation: everything it can do. -/

namespace Sys2Proof.Machine

/-! ### Answers -/

theorem rawAnswer_of_cons {s : State} {r : Raw} {rs : List Raw} (h : s.rawIn = r :: rs) : rawAnswer s = r := by
  simp [rawAnswer, h]

theorem clockAnswer_of_cons {s : State} {t : Millis} {ts : List Millis} (h : s.clockIn = t :: ts) :
    clockAnswer s = t := by
  simp [clockAnswer, h]

theorem addressAnswer_of_cons {s : State} {a : Option Addr} {as : List (Option Addr)} (h : s.addrIn = a :: as) :
    addressAnswer s = a := by
  simp [addressAnswer, h]

/-! ### The command port -/

theorem fetch_polling {s : State} {c : Caller} (h : s.acquiring = some c) :
    fetch s = .polling c { s with acquiring := none } := by
  simp [fetch, h]

theorem fetch_word {s : State} {w : CmdWord} {rest : List CmdWord} (ha : s.acquiring = none)
    (h : s.commands = w :: rest) : fetch s = .word w { s with commands := rest } := by
  simp [fetch, ha, h]

theorem fetch_idle {s : State} (ha : s.acquiring = none) (h : s.commands = []) : fetch s = .idle := by
  simp [fetch, ha, h]

/-! ### What is read off a trace -/

@[simp] theorem diagnosticsOf_append (a b : List Transaction) :
    diagnosticsOf (a ++ b) = diagnosticsOf a ++ diagnosticsOf b := by
  induction a with
  | nil => rfl
  | cons x xs ih => cases x <;> simp_all [diagnosticsOf]

@[simp] theorem delayTotal_append (a b : List Transaction) : delayTotal (a ++ b) = delayTotal a + delayTotal b := by
  induction a with
  | nil => simp [delayTotal]
  | cons x xs ih => cases x <;> simp_all [delayTotal]; omega

/-- No delay stands first, and none after a clock reading: what follows a request so is no part of an acquisition. -/
def OpensNoDelay : List Transaction → Prop
  | .delay _ :: _ => False
  | .clockNow _ :: .delay _ :: _ => False
  | _ => True

/-- The ticks of two traces joined are those of the first and those of the second, each with its own times. -/
theorem tickTimes_append (a b : List Transaction) (hb : OpensNoDelay b) (before after : List Nat) (now : Nat)
    (h : before.length = a.length) :
    tickTimes (a ++ b) (before ++ now :: after) = tickTimes a (before ++ [now]) ++ tickTimes b (now :: after) := by
  match a, before, h with
  | [], [], _ => cases b <;> simp [tickTimes]
  | t :: a, x :: before, h =>
    have ih := tickTimes_append a b hb before after now (by simpa using h)
    by_cases ht : t = .busRequestConversion
    · subst ht
      by_cases hd : ∃ t n r, a = .clockNow t :: .delay n :: r
      · obtain ⟨t, n, r, rfl⟩ := hd
        match before, h with
        | [_], h => simp at h
        | _ :: _ :: before, h => simpa [tickTimes] using tickTimes_append r b hb before after now (by simpa using h)
      · have ea : ∀ ts, tickTimes (.busRequestConversion :: a) (x :: ts) = x :: tickTimes a ts := fun ts => by
          rw [tickTimes.eq_2]
          rintro t n r _ _ _ e -
          exact hd ⟨t, n, r, e⟩
        have eab : ∀ ts, tickTimes (.busRequestConversion :: (a ++ b)) (x :: ts) = x :: tickTimes (a ++ b) ts :=
          fun ts => by
            rw [tickTimes.eq_2]
            rintro t n r _ _ _ e -
            match a, e with
            | [], e =>
              obtain rfl : b = _ := by simpa using e
              exact hb
            | [_], e =>
              obtain ⟨-, rfl⟩ : _ ∧ b = _ := by simpa using e
              exact hb
            | _ :: _ :: a, e =>
              obtain ⟨rfl, rfl, -⟩ : _ = _ ∧ _ = _ ∧ _ := by simpa using e
              exact hd ⟨t, n, a, rfl⟩
        simp only [List.cons_append, ea, eab, ih]
    · simp [tickTimes, ht, ih]

/-! ### InitProc -/

/-- The address an InitProc goes on with: the one the bus answers, else the one held (R192, R240). -/
def resolvedAddr (s : State) : Addr := (addressAnswer s).getD s.addr

/-- Step 2 stores the address the bus answers, or emits ADDR_FAIL and keeps the one held (R192, R240). -/
theorem resolveAddress_cases (s : State) :
    (addressAnswer s = none ∧ resolveAddress s = record (.diag (diagWord .addrFail s.chan)) (takeAddress s)) ∨
    (∃ a, addressAnswer s = some a ∧ resolveAddress s = { takeAddress s with addr := a }) := by
  cases h : addressAnswer s with
  | none => exact .inl ⟨rfl, by simp [resolveAddress, h]⟩
  | some a => exact .inr ⟨a, rfl, by simp [resolveAddress, h]⟩

/-- Steps 1 to 5 leave the registers but ADDR and T_REQ, the filters, the readings and the responses as they are, and
append the opening transactions of R193 (a). -/
theorem initBegin_eq (s : State) : initBegin s = { s with
    addr := resolvedAddr s, tReq := clockAnswer s, addrIn := s.addrIn.tail, clockIn := s.clockIn.tail
    addrAsked := s.addrAsked + 1, clockAsked := s.clockAsked + 1
    trace := s.trace ++ openingTransactions s (addressAnswer s) (clockAnswer s) } := by
  rcases resolveAddress_cases (record .busReset s) with ⟨h, e⟩ | ⟨a, h, e⟩ <;>
    rw [addressAnswer_record] at h <;> apply State.ext <;>
    simp [initBegin, resolvedAddr, openingTransactions, e, h] <;> simp [clockAnswer]

/-- The state a poll leaves. -/
def Poll.state : Poll → State
  | .valid s => s
  | .timeout s => s
  | .again s => s

/-- A poll takes one reading, and one clock reading if it was the sentinel (R192 step 6). -/
theorem pollOnce_cases (w : Raw) (s : State) :
    (rawAnswer s ≠ w ∧ pollOnce w s = .valid (takeRaw s)) ∨
    (rawAnswer s = w ∧ 2000#32 < elapsed (clockAnswer s) s.tReq ∧
      pollOnce w s = .timeout (takeClock (takeRaw s))) ∨
    (rawAnswer s = w ∧ ¬ 2000#32 < elapsed (clockAnswer s) s.tReq ∧
      pollOnce w s = .again (takeClock (takeRaw s))) := by
  by_cases h : rawAnswer s = w
  · by_cases h' : 2000#32 < elapsed (clockAnswer s) s.tReq
    · exact .inr (.inl ⟨h, h', by simp [pollOnce, h, h']⟩)
    · exact .inr (.inr ⟨h, h', by simp [pollOnce, h, h']⟩)
  · exact .inl ⟨h, by simp [pollOnce, h]⟩

/-- A listed valid reading ends the spin-wait (R192 step 6). -/
theorem pollOnce_of_valid {w raw : Raw} {s : State} {rs : List Raw} (h : s.rawIn = raw :: rs) (hn : raw ≠ w) :
    pollOnce w s = .valid (takeRaw s) := by
  simp [pollOnce, rawAnswer_of_cons h, hn]

/-- The sentinel ends the spin-wait when the clock is seen more than 2000 ms past the request (R192 step 6). -/
theorem pollOnce_of_timeout {w : Raw} {t : Millis} {s : State} {rs : List Raw} {cs : List Millis}
    (h : s.rawIn = w :: rs) (hc : s.clockIn = t :: cs) (ht : 2000#32 < elapsed t s.tReq) :
    pollOnce w s = .timeout (takeClock (takeRaw s)) := by
  simp [pollOnce, rawAnswer_of_cons h, clockAnswer_of_cons hc, ht]

/-- The transactions polling makes: readings and clock readings. -/
def IsPollTransaction : Transaction → Prop
  | .busReadRaw _ _ => True
  | .clockNow _ => True
  | _ => False

/-- What two states have in common when only polls lie between them: every field but the answers still to come and the
trace, which has grown by readings and clock readings. -/
structure PolledFrom (s t : State) : Prop where
  eq : t = { s with
    rawIn := t.rawIn, clockIn := t.clockIn, rawAsked := t.rawAsked, clockAsked := t.clockAsked, trace := t.trace }
  trace : ∃ new, t.trace = s.trace ++ new ∧ ∀ x ∈ new, IsPollTransaction x

theorem PolledFrom.refl (s : State) : PolledFrom s s := ⟨rfl, [], by simp⟩

theorem PolledFrom.trans {s t u : State} (h : PolledFrom s t) (h' : PolledFrom t u) : PolledFrom s u := by
  obtain ⟨e, n, hn, hp⟩ := h
  obtain ⟨e', n', hn', hp'⟩ := h'
  refine ⟨?_, n ++ n', by simp [hn', hn], ?_⟩
  · rw [e', e]
  · intro x hx
    rcases List.mem_append.1 hx with hx | hx
    · exact hp x hx
    · exact hp' x hx

/-- Polls leave every register and filter alone. -/
theorem PolledFrom.fields {s t : State} (h : PolledFrom s t) :
    t.lstate = s.lstate ∧ t.addr = s.addr ∧ t.chan = s.chan ∧ t.tReq = s.tReq ∧ t.cnt = s.cnt ∧ t.ref = s.ref ∧
    t.filtFast = s.filtFast ∧ t.filtSlow = s.filtSlow ∧ t.filtSlope = s.filtSlope ∧
    t.commands = s.commands ∧ t.addrIn = s.addrIn ∧ t.addrAsked = s.addrAsked ∧ t.fed = s.fed ∧
    t.acquiring = s.acquiring ∧ t.responses = s.responses := by
  rw [h.eq]
  simp

/-- Polls emit no diagnostic. -/
theorem diagnosticsOf_polls {new : List Transaction} (h : ∀ x ∈ new, IsPollTransaction x) : diagnosticsOf new = [] := by
  induction new with
  | nil => rfl
  | cons x xs ih => cases x <;> simp_all [IsPollTransaction, diagnosticsOf]

theorem takeRaw_polledFrom (s : State) : PolledFrom s (takeRaw s) :=
  ⟨rfl, _, takeRaw_trace s, by simp [IsPollTransaction]⟩

theorem takeClock_polledFrom (s : State) : PolledFrom s (takeClock s) :=
  ⟨rfl, _, takeClock_trace s, by simp [IsPollTransaction]⟩

theorem pollOnce_polledFrom (w : Raw) (s : State) : PolledFrom s (pollOnce w s).state := by
  rcases pollOnce_cases w s with ⟨-, h⟩ | ⟨-, -, h⟩ | ⟨-, -, h⟩ <;> rw [h]
  · exact takeRaw_polledFrom s
  · exact (takeRaw_polledFrom s).trans (takeClock_polledFrom _)
  · exact (takeRaw_polledFrom s).trans (takeClock_polledFrom _)

theorem pollLoop_polledFrom (w : Raw) (n : Nat) (s : State) : PolledFrom s (pollLoop w n s).state := by
  induction n generalizing s with
  | zero => exact .refl s
  | succ n ih =>
    have h := pollOnce_polledFrom w s
    unfold pollLoop
    split
    · simpa [*] using h
    · simpa [*] using h
    · rename_i t ht
      rw [ht] at h
      exact h.trans (ih t)

/-- The three ends of a loop, each with what lies behind it. -/
theorem pollLoop_cases (w : Raw) (n : Nat) (s : State) :
    ∃ u, PolledFrom s u ∧ (pollLoop w n s = .valid u ∨ pollLoop w n s = .timeout u ∨ pollLoop w n s = .again u) := by
  have h := pollLoop_polledFrom w n s
  cases e : pollLoop w n s <;> rw [e] at h
  · exact ⟨_, h, .inl rfl⟩
  · exact ⟨_, h, .inr (.inl rfl)⟩
  · exact ⟨_, h, .inr (.inr rfl)⟩

/-- Steps 7 and 8 (R192). -/
theorem initFinish_eq (s : State) : initFinish s = { s with
    lstate := .connected, tReq := clockAnswer s, cnt := 31
    ref := Config.F.readOutputDouble (Config.F.init s.filtSlow (rescaleSat (rawAnswer s)))
    filtFast := Config.F.init s.filtFast (rescaleSat (rawAnswer s))
    filtSlow := Config.F.init s.filtSlow (rescaleSat (rawAnswer s))
    filtSlope := Config.F.init s.filtSlope 0
    fed := s.fed ++ [(.fast, .init (rescaleSat (rawAnswer s))), (.slow, .init (rescaleSat (rawAnswer s))),
      (.slope, .init 0)]
    rawIn := s.rawIn.tail, clockIn := s.clockIn.tail
    rawAsked := s.rawAsked + 1, clockAsked := s.clockAsked + 1
    trace := s.trace ++ [.busRequestConversion, .clockNow (clockAnswer s), .delay 750,
      .busReadRaw s.addr (rawAnswer s)] } := by
  apply State.ext <;> simp [initFinish]

/-- InitProc when the first listed reading is valid (R192). -/
theorem initProc_of_valid {w raw : Raw} {s : State} {rs : List Raw} (h : s.rawIn = raw :: rs) (hn : raw ≠ w) :
    initProc w s = .done (initFinish (takeRaw (initBegin s))) := by
  have hb : (initBegin s).rawIn = raw :: rs := by simp [initBegin_eq, h]
  simp [initProc, h, pollLoop, pollOnce_of_valid hb hn, afterPoll]

/-- InitProc when the first poll reads the sentinel too late (R192, R241). -/
theorem initProc_of_timeout {w : Raw} {t0 t : Millis} {s : State} {rs : List Raw} {cs : List Millis}
    (h : s.rawIn = w :: rs) (hc : s.clockIn = t0 :: t :: cs) (ht : 2000#32 < elapsed t t0) :
    initProc w s = .done { takeClock (takeRaw (initBegin s)) with lstate := .disconnected } := by
  have hb : (initBegin s).rawIn = w :: rs := by simp [initBegin_eq, h]
  have hbc : (initBegin s).clockIn = t :: cs := by simp [initBegin_eq, hc]
  have hbt : (initBegin s).tReq = t0 := by simp [initBegin_eq, clockAnswer, hc]
  simp [initProc, h, pollLoop, pollOnce_of_timeout hb hbc (by rw [hbt]; exact ht), afterPoll]

/-! ### UPDATE -/

/-- Step 1 makes one clock reading, and when the request is stale a new request, its stamp and a delay (R200). -/
theorem updateStale_cases (s : State) :
    (¬ 5000#32 < elapsed (clockAnswer s) s.tReq ∧ updateStale s = takeClock s) ∨
    (5000#32 < elapsed (clockAnswer s) s.tReq ∧
      updateStale s = record (.delay 750) (requestAndStamp (takeClock s))) := by
  by_cases h : 5000#32 < elapsed (clockAnswer s) s.tReq
  · exact .inr ⟨h, by simp [updateStale, h]⟩
  · exact .inl ⟨h, by simp [updateStale, h]⟩

/-- Step 1 takes no reading (R200). -/
@[simp] theorem updateStale_rawIn (s : State) : (updateStale s).rawIn = s.rawIn := by
  rcases updateStale_cases s with ⟨-, e⟩ | ⟨-, e⟩ <;> simp [e]

/-- While Connected, on a request that is not stale and a valid reading, UPDATE is its steps 5, 5b and 6 (R200). -/
theorem updateCommand_of_valid {w raw : Raw} {s : State} {rs : List Raw} (hl : s.lstate = .connected)
    (hc : ¬ 5000#32 < elapsed (clockAnswer s) s.tReq) (h : s.rawIn = raw :: rs) (hn : raw ≠ w) :
    updateCommand w s = updateFeed raw (takeRaw (takeClock s)) := by
  have hst : updateStale s = takeClock s := by
    rcases updateStale_cases s with ⟨-, e⟩ | ⟨e, -⟩
    · exact e
    · exact absurd e hc
  have hr : rawAnswer (takeClock s) = raw := rawAnswer_of_cons h
  simp [updateCommand, updateWithReading, hst, hr, hl, hn]

end Sys2Proof.Machine
end

