-- ==== Sys2Proof/Laws/Words.lean ====
section
/-! SUPPORT. Taking a word of two fields apart and putting it together (spec/30_encoding.md R80). -/

namespace Sys2Proof

theorem append_high {m n : Nat} (a : BitVec m) (b : BitVec n) : (a ++ b).extractLsb' n m = a := by
  apply BitVec.eq_of_getLsbD_eq
  intro i hi
  simp only [BitVec.getLsbD_extractLsb', BitVec.getLsbD_append]
  simp [hi]

theorem append_low {m n : Nat} (a : BitVec m) (b : BitVec n) : (a ++ b).extractLsb' 0 n = b := by
  apply BitVec.eq_of_getLsbD_eq
  intro i hi
  simp only [BitVec.getLsbD_extractLsb', BitVec.getLsbD_append]
  simp [hi]

theorem append_fields {m n : Nat} (w : BitVec (m + n)) : w.extractLsb' n m ++ w.extractLsb' 0 n = w := by
  apply BitVec.eq_of_getLsbD_eq
  intro i hi
  simp only [BitVec.getLsbD_extractLsb', BitVec.getLsbD_append]
  by_cases h : i < n
  · simp [h]
  · have h1 : i - n < m := by omega
    have h2 : n + (i - n) = i := by omega
    simp [h, h1, h2]

@[simp] theorem opField_commandWord (op : BitVec 4) (imm : BitVec 16) : opField (commandWord op imm) = op :=
  append_high op imm

@[simp] theorem immField_commandWord (op : BitVec 4) (imm : BitVec 16) : immField (commandWord op imm) = imm :=
  append_low op imm

theorem commandWord_fields (w : CmdWord) : commandWord (opField w) (immField w) = w :=
  append_fields (m := 4) (n := 16) w

theorem commandWord_and (op op' : BitVec 4) (imm imm' : BitVec 16) :
    commandWord op imm &&& commandWord op' imm' = commandWord (op &&& op') (imm &&& imm') :=
  BitVec.and_append

theorem commandWord_inj (op op' : BitVec 4) (imm imm' : BitVec 16) :
    commandWord op imm = commandWord op' imm' ↔ op = op' ∧ imm = imm' := by
  refine ⟨fun h => ⟨?_, ?_⟩, fun h => by rw [h.1, h.2]⟩
  · simpa using congrArg opField h
  · simpa using congrArg immField h

end Sys2Proof
end

