-- ==== Sys2Proof/Laws/PerInstr.lean ====
section
/-! SUPPORT. Statements made for every command, one lemma per constructor. -/

namespace Sys2Proof.Laws.EncodeRow

/-- The encoded word selects the row of spec/30_encoding.md R82 that bears the command's mnemonic. -/
def Statement (i : Instr) : Prop := ∃ r ∈ encodingTable, r.selects (encode i) = true ∧ r.mnemonic = i.mnemonic

theorem init : Statement .init := by unfold Statement; decide
theorem update : Statement .update := by unfold Statement; decide
theorem read : Statement .read := by unfold Statement; decide
theorem readFast : Statement .readFast := by unfold Statement; decide
theorem readSlow : Statement .readSlow := by unfold Statement; decide
theorem readSlope : Statement .readSlope := by unfold Statement; decide
theorem detPosPeak : Statement .detPosPeak := by unfold Statement; decide
theorem detNegPeak : Statement .detNegPeak := by unfold Statement; decide
theorem isConnected : Statement .isConnected := by unfold Statement; decide

/-- Masking the operand away leaves the operation code (R82, mask 0xF0000). -/
theorem mask_operand (op : BitVec 4) (imm16 : Coeff) : commandWord op imm16 &&& 0xF0000 = commandWord op 0 := by
  rw [show (0xF0000 : CmdWord) = commandWord 0xF 0 by decide, commandWord_and, commandWord_inj]
  exact ⟨BitVec.and_allOnes, BitVec.and_zero⟩

theorem setFastCoeff (imm16 : Coeff) : Statement (.setFastCoeff imm16) :=
  ⟨⟨"SET_FAST_COEFF", 0xA0000, 0xF0000⟩, by decide, by
    simp only [EncodingRow.selects, encode, mask_operand]; decide, rfl⟩

theorem setSlowCoeff (imm16 : Coeff) : Statement (.setSlowCoeff imm16) :=
  ⟨⟨"SET_SLOW_COEFF", 0xB0000, 0xF0000⟩, by decide, by
    simp only [EncodingRow.selects, encode, mask_operand]; decide, rfl⟩

theorem setSlopeCoeff (imm16 : Coeff) : Statement (.setSlopeCoeff imm16) :=
  ⟨⟨"SET_SLOPE_COEFF", 0xC0000, 0xF0000⟩, by decide, by
    simp only [EncodingRow.selects, encode, mask_operand]; decide, rfl⟩

end Sys2Proof.Laws.EncodeRow
end

