-- ==== Sys2Proof/Laws/Step.lean ====
section
/-! SUPPORT. Runs of the host's machine, and failed polls (spec/43_lifecycle.md R192 step 6). -/

namespace Sys2Proof.Machine

theorem run_zero (s : State) : Host.Core.run core 0 s = .next s := rfl

theorem run_succ {s t : State} (n : Nat) (h : step s = .next t) :
    Host.Core.run core (n + 1) s = Host.Core.run core n t := by
  have h' : core.step s = .next t := h
  simp only [Host.Core.run, h']

/-- Polls that read the sentinel with time left leave nothing but their transactions. -/
theorem pollLoop_failedPolls (polls : List Millis) (n : Nat) (s : State) (rs : List Raw) (cs : List Millis)
    (hr : s.rawIn = polls.map (fun _ => Config.rawSentinel) ++ rs) (hc : s.clockIn = polls ++ cs)
    (hp : ∀ p ∈ polls, elapsed p s.tReq ≤ 2000#32) :
    pollLoop Config.rawSentinel (n + polls.length) s = pollLoop Config.rawSentinel n { s with
      rawIn := rs, clockIn := cs, rawAsked := s.rawAsked + polls.length, clockAsked := s.clockAsked + polls.length
      trace := s.trace ++ failedPolls s.addr polls } := by
  induction polls generalizing s with
  | nil =>
    simp only [List.map_nil, List.nil_append] at hr hc
    simp [failedPolls, ← hr, ← hc]
  | cons p ps ih =>
    have hra : rawAnswer s = Config.rawSentinel := rawAnswer_of_cons (by simpa using hr)
    have hca : clockAnswer s = p := clockAnswer_of_cons (by simpa using hc)
    have hpo : pollOnce Config.rawSentinel s = .again (takeClock (takeRaw s)) := by
      rcases pollOnce_cases Config.rawSentinel s with ⟨h, -⟩ | ⟨-, h, -⟩ | ⟨-, -, h⟩
      · exact absurd hra h
      · rw [hca] at h
        exact absurd h (by simpa using hp p (by simp))
      · exact h
    rw [List.length_cons, ← Nat.add_assoc]
    simp only [pollLoop, hpo]
    rw [ih _ (by simp [hr]) (by simp [hc]) fun q hq => by simpa using hp q (by simp [hq])]
    congr 1
    apply State.ext <;> simp [failedPolls, hca, hra, Nat.add_assoc, Nat.add_comm 1]

/-! ### Preservation, packaged once -/

/-- A transaction that answers nothing and is not a request (R13). -/
def IsPlainTransaction (s : State) : Transaction → Prop
  | .busReset => True
  | .busSetResolution _ _ => True
  | .delay _ => True
  | .diag w => ∃ c, w = diagWord c s.chan
  | _ => False

/-- Closed under everything a command is made of: then it is kept by every step. -/
structure StepClosed (P : State → Prop) : Prop where
  commands : ∀ s cs, P s → P { s with commands := cs }
  acquiring : ∀ s c, P s → P { s with acquiring := c }
  respond : ∀ s st d, (st ≠ .ok → d = 0) → P s → P (respond st d s)
  plain : ∀ s t, IsPlainTransaction s t → P s → P (record t s)
  address : ∀ s, P s → P (takeAddress s)
  setAddr : ∀ s a, P s → P { s with addr := a }
  raw : ∀ s, P s → P (takeRaw s)
  clock : ∀ s, P s → P (takeClock s)
  request : ∀ s, P s → P (requestAndStamp s)
  lost : ∀ s, P s → P { s with lstate := .disconnected }
  seed : ∀ s a raw, .busReadRaw a raw ∈ s.trace → P s → P (connect (rescaleSat raw) s)
  feed : ∀ s a raw, .busReadRaw a raw ∈ s.trace → raw ≠ Config.rawSentinel → s.lstate = .connected → P s →
    P (slopeStep (feedFilters (rescaleSat raw) s))
  coefficients : ∀ s k p, P s → P (operate k (.setCoefficients p) s)

variable {P : State → Prop}

theorem StepClosed.initBegin (h : StepClosed P) {s : State} (hs : P s) : P (initBegin s) := by
  have h1 : P (record .busReset s) := h.plain _ _ trivial hs
  have h2 : P (resolveAddress (record .busReset s)) := by
    rcases resolveAddress_cases (record .busReset s) with ⟨-, e⟩ | ⟨a, -, e⟩ <;> rw [e]
    · exact h.plain _ _ ⟨_, rfl⟩ (h.address _ h1)
    · exact h.setAddr _ _ (h.address _ h1)
  exact h.plain _ _ trivial (h.request _ (h.plain _ _ trivial h2))

theorem StepClosed.pollOnce (h : StepClosed P) {s : State} (hs : P s) : P (pollOnce Config.rawSentinel s).state := by
  have h1 := h.raw s hs
  rcases pollOnce_cases Config.rawSentinel s with ⟨-, e⟩ | ⟨-, -, e⟩ | ⟨-, -, e⟩ <;> rw [e]
  · exact h1
  · exact h.clock _ h1
  · exact h.clock _ h1

theorem StepClosed.pollLoop (h : StepClosed P) (n : Nat) {s : State} (hs : P s) :
    P (pollLoop Config.rawSentinel n s).state := by
  induction n generalizing s with
  | zero => exact hs
  | succ n ih =>
    have h1 := h.pollOnce hs
    unfold Machine.pollLoop
    split <;> rename_i t e <;> rw [e] at h1
    · exact h1
    · exact h1
    · exact ih h1

theorem StepClosed.initFinish (h : StepClosed P) {s : State} (hs : P s) : P (initFinish s) :=
  h.seed _ s.addr _ (by simp) (h.raw _ (h.plain _ _ trivial (h.request _ hs)))

/-- The state an acquisition stands in. -/
def Acquisition.state : Acquisition → State
  | .done s => s
  | .polling s => s

theorem StepClosed.afterPoll (h : StepClosed P) {p : Poll} (hp : P p.state) : P (afterPoll p).state := by
  cases p with
  | valid s => exact h.initFinish hp
  | timeout s => exact h.lost _ hp
  | again s => exact hp

theorem StepClosed.updateLost (h : StepClosed P) {s : State} (hs : P s) : P (updateLost s) := by
  unfold Machine.updateLost
  refine h.respond _ _ _ (by simp) (h.lost _ ?_)
  split
  · exact h.plain _ _ ⟨_, rfl⟩ hs
  · exact hs

theorem StepClosed.updateFeed (h : StepClosed P) {s : State} {a : Addr} {raw : Raw}
    (hm : .busReadRaw a raw ∈ s.trace) (hr : raw ≠ Config.rawSentinel) (hl : s.lstate = .connected) (hs : P s) :
    P (updateFeed raw s) :=
  h.respond _ _ _ (by simp) (h.request _ (h.feed s a raw hm hr hl hs))

theorem StepClosed.updateAfterInit (h : StepClosed P) {s : State} (hs : P s) :
    P (updateAfterInit Config.rawSentinel s) := by
  unfold Machine.updateAfterInit
  split
  · rename_i hl
    dsimp only
    split
    · exact h.updateLost (h.raw _ hs)
    · rename_i hr
      exact h.updateFeed (a := s.addr) (by simp) hr hl (h.plain _ _ ⟨_, rfl⟩ (h.raw _ hs))
  · exact h.respond _ _ _ (by simp) hs

theorem StepClosed.afterAcquisition (h : StepClosed P) (c : Caller) {a : Acquisition} (ha : P a.state) :
    P (afterAcquisition Config.rawSentinel c a) := by
  cases a with
  | polling s => exact h.acquiring _ _ ha
  | done s =>
    cases c with
    | init => exact h.respond _ _ _ (by simp) ha
    | update => exact h.updateAfterInit ha

theorem StepClosed.initProc (h : StepClosed P) {s : State} (hs : P s) : P (initProc Config.rawSentinel s).state :=
  h.afterPoll (h.pollLoop _ (h.initBegin hs))

theorem StepClosed.updateStale (h : StepClosed P) {s : State} (hs : P s) : P (updateStale s) := by
  rcases updateStale_cases s with ⟨-, e⟩ | ⟨-, e⟩ <;> rw [e]
  · exact h.clock _ hs
  · exact h.plain _ _ trivial (h.request _ (h.clock _ hs))

theorem updateStale_lstate (s : State) : (updateStale s).lstate = s.lstate := by
  rcases updateStale_cases s with ⟨-, e⟩ | ⟨-, e⟩ <;> simp [e]

theorem StepClosed.update (h : StepClosed P) {s : State} (hs : P s) : P (updateCommand Config.rawSentinel s) := by
  unfold updateCommand
  split
  · exact h.respond _ _ _ (by simp) hs
  · rename_i hl
    have h1 := h.updateStale hs
    show P (updateWithReading _ _ _)
    unfold updateWithReading
    split
    · exact h.updateLost (h.raw _ h1)
    · rename_i hr
      split
      · exact h.afterAcquisition _ (h.initProc (h.plain _ _ trivial (h.raw _ h1)))
      · rename_i hd
        refine h.updateFeed (a := (Machine.updateStale s).addr) (by simp) hr ?_ (h.raw _ h1)
        rw [takeRaw_lstate, updateStale_lstate] at *
        cases e : s.lstate <;> simp_all

theorem StepClosed.exec (h : StepClosed P) {i : Instr} {s t : State} (hs : P s) (he : exec i s = .next t) : P t := by
  cases i with
  | init =>
    cases he
    exact h.afterAcquisition _ (h.initProc hs)
  | update =>
    cases he
    exact h.update hs
  | setFastCoeff p =>
    cases he
    exact h.respond _ _ _ (by simp) (h.coefficients s .fast p hs)
  | setSlowCoeff p =>
    cases he
    exact h.respond _ _ _ (by simp) (h.coefficients s .slow p hs)
  | setSlopeCoeff p =>
    cases he
    exact h.respond _ _ _ (by simp) (h.coefficients s .slope p hs)
  | _ =>
    cases he
    exact h.respond _ _ _ (by simp) hs

/-- What is closed under the parts of every command is kept by every step. -/
theorem StepClosed.step (h : StepClosed P) {s t : State} (hs : P s) (he : step s = .next t) : P t := by
  unfold Machine.step fetch at he
  split at he
  · cases he
    exact hs
  · rename_i c u hf
    split at hf <;> cases hf
    cases he
    exact h.afterAcquisition _ (h.afterPoll (h.pollOnce (h.acquiring _ _ hs)))
  · rename_i w u hf
    split at hf <;> cases hf
    split at he
    · exact h.exec (h.commands _ _ hs) he
    · cases he
      exact h.respond _ _ _ (by simp) (h.commands _ _ hs)

end Sys2Proof.Machine
end

