-- ==== Sys2Proof/Tests/Slice0.lean ====
section
/-! SUPPORT. Tests. Expected values stand in spec/95_test_vectors.md, whose section or program each test names, or in
the rule it names; S is the test sentinel -2032 of its section 4, and what depends on the open Filter Stage or on an
open address is left as it stands. The second half shows, for each obligation with hypotheses, states and operands
that meet them; the sentinel there is the open `Config.rawSentinel`. -/

namespace Sys2Proof.Tests

open Sys2Proof.Machine

/-- The test sentinel of 95_test_vectors.md section 4. -/
def S : Raw := BitVec.ofInt 32 (-2032)

/-- Reset with the channel of 95_test_vectors.md section 4. -/
def fresh : State := { State.reset with chan := 7 }

/-- Waiting for the word `w`. -/
def given (w : CmdWord) (s : State) : State := { s with commands := [w] }

/-- The state an outcome goes on in. -/
def after (o : Host.Outcome State Fault Refusal) : State :=
  match o with
  | .next t => t
  | _ => fresh

/-- The environment of INIT in program P1. -/
def beforeInit : State := { fresh with addrIn := [some Config.cfgAddr], rawIn := [337, 338], clockIn := [1000, 1750] }

/-- What INIT records of the filters in program P1. -/
def seeded : List (FilterSel × FilterOp) := [(.fast, .init 0x2A40), (.slow, .init 0x2A40), (.slope, .init 0)]

/-- The registers after INIT in program P1 (REF depends on F and is left as it was). -/
def connected : State :=
  { fresh with lstate := .connected, tReq := 1750, cnt := 31, fed := seeded
               filtFast := Config.F.init Config.F.resetState 0x2A40
               filtSlow := Config.F.init Config.F.resetState 0x2A40
               filtSlope := Config.F.init Config.F.resetState 0 }

/-- The registers after the first UPDATE of program P1, and the device gone (program P2). -/
def gone : State :=
  { connected with lstate := .disconnected, tReq := 3500, cnt := 30
                   filtFast := Config.F.add connected.filtFast 0x2A80
                   filtSlow := Config.F.add connected.filtSlow 0x2A80
                   fed := seeded ++ [(.fast, .add 0x2A80), (.slow, .add 0x2A80)] }

/-! ### Words -/

/-- R82, R83, 2.6: illegal words. -/
theorem test_illFormed_words : legalWord 0x00000 = false ∧ legalWord 0xD0000 = false ∧ legalWord 0xE1234 = false ∧
    legalWord 0xFFFFF = false ∧ legalWord 0x10001 = false ∧ legalWord 0x2FFFF = false ∧ legalWord 0x90001 = false ∧
    legalWord 0x88000 = false ∧ legalWord 0x10000 = true ∧ legalWord 0xA0000 = true := by decide

/-- 2.6: and how the decoder refuses them. -/
theorem test_decode_refuses : decode 0x00000 = .error (.unassignedOp 0) ∧ decode 0xE1234 = .error (.unassignedOp 0xE) ∧
    decode 0xFFFFF = .error (.unassignedOp 0xF) ∧ decode 0x10001 = .error (.operandNotZero 1 1) ∧
    decode 0x2FFFF = .error (.operandNotZero 2 0xFFFF) ∧ decode 0x90001 = .error (.operandNotZero 9 1) := by decide

/-- R82: the commands without operand, `op` in bits 19:16 and zeros below. -/
theorem test_decode_noOperand :
    decode 0b0001_0000000000000000 = .ok .init ∧ decode 0b0010_0000000000000000 = .ok .update ∧
    decode 0b0011_0000000000000000 = .ok .read ∧ decode 0b0100_0000000000000000 = .ok .readFast ∧
    decode 0b0101_0000000000000000 = .ok .readSlow ∧ decode 0b0110_0000000000000000 = .ok .readSlope ∧
    decode 0b0111_0000000000000000 = .ok .detPosPeak ∧ decode 0b1000_0000000000000000 = .ok .detNegPeak ∧
    decode 0b1001_0000000000000000 = .ok .isConnected := by decide

/-- R82, R176 to R178: the SET commands, `imm16` in bits 15:0. -/
theorem test_decode_set :
    decode 0b1010_0001001000110100 = .ok (.setFastCoeff 0x1234) ∧
    decode 0b1011_0000010000000010 = .ok (.setSlowCoeff 0x0402) ∧
    decode 0b1100_1111111111111111 = .ok (.setSlopeCoeff 0xFFFF) ∧ decode 0xA0000 = .ok (.setFastCoeff 0) := by decide

/-- R93: the words of programs P1, P4 and the worked examples. -/
theorem test_encode : encode .init = 0x10000 ∧ encode .isConnected = 0x90000 ∧ encode .readSlope = 0x60000 ∧
    encode (.setFastCoeff 0x1234) = 0xA1234 ∧ encode (.setSlowCoeff 0x0402) = 0xB0402 ∧
    encode (.setSlopeCoeff 0xFFFF) = 0xCFFFF := by decide

/-- R80: a word has exactly 20 bits. -/
theorem test_decodeTableWord : decodeTableWord 24 0x30000 = some .read ∧
    decodeTableWord 24 0xC0001 = some (.setSlopeCoeff 1) ∧ decodeTableWord 24 0x110000 = none ∧
    decodeTableWord 24 0 = none := by decide

/-- 2.7: diagnostic words with CHAN = 0x07; 2.6: response words. -/
theorem test_output_words : diagWord .addrFail 7 = 0x107 ∧ diagWord .disconnect 7 = 0x207 ∧
    diagWord .reconnect 7 = 0x307 ∧ responseWord .illegal 0 = 0x10000 ∧ responseWord .seq 0 = 0x20000 ∧
    responseWord .ok 0x2A40 = 0x02A40 := by decide

/-! ### Arithmetic -/

/-- R8 and R112: the values of the constants that are computed from others, and of those they come from. -/
theorem test_params : Params.rawFrac = 4 ∧ Params.sFrac = 9 ∧ Params.dFrac = 25 ∧ Params.rescaleShift = 5 ∧
    Params.slopeShift = 16 ∧ Params.rawLo = -1024 ∧ Params.rawHi = 1023 := by decide

/-- 2.1, with the boundary rows. -/
theorem test_rescaleSat : rescaleSat 0 = 0 ∧ rescaleSat 1 = 0x0020 ∧ rescaleSat 0xFFFFFFFF = 0xFFE0 ∧
    rescaleSat 338 = 0x2A40 ∧ rescaleSat 0xFFFFFF58 = 0xEB00 ∧ rescaleSat 1023 = 0x7FE0 ∧
    rescaleSat 1024 = 0x7FE0 ∧ rescaleSat 0x7FFFFFFF = 0x7FE0 ∧ rescaleSat 0xFFFFFC01 = 0x8020 ∧
    rescaleSat 0xFFFFFC00 = 0x8000 ∧ rescaleSat 0xFFFFFBFF = 0x8000 ∧ rescaleSat 0x80000000 = 0x8000 := by decide

/-- 2.2, with the wrapped rows. -/
theorem test_slopeScale : slopeScale 0x00010000 = 0x0078 ∧ slopeScale 0xFFFF0000 = 0xFF88 ∧
    slopeScale 0xFFFFFFFF = 0xFFFF ∧ slopeScale 546 = 0 ∧ slopeScale 547 = 1 ∧ slopeScale 0xFFFFFDDD = 0xFFFE ∧
    slopeScale 0x00600000 = 0x2D00 ∧ slopeScale 0x01111111 = 0x7FFF ∧ slopeScale 0xFEEEEEEF = 0x8000 ∧
    slopeScale 0x01111112 = 0x8000 ∧ slopeScale 0x02000000 = 0xF000 ∧ slopeScale 0x80000000 = 0 := by decide

/-- 2.4, with the wrapped rows, and R118. -/
theorem test_sub32_asr16 : sub32 0x28600000 0x28000000 = 0x00600000 ∧ sub32 0x28000000 0x28600000 = 0xFFA00000 ∧
    sub32 0x7FE00000 0x80000000 = 0xFFE00000 ∧ sub32 0x80000000 0x7FE00000 = 0x00200000 ∧
    asr16 0xFFFFFFFF = 0xFFFF ∧ asr16 0xFFFF0000 = 0xFFFF ∧ asr16 0xFFFEFFFF = 0xFFFE := by decide

/-- 2.5, across the wrap of the clock. -/
theorem test_elapsed : elapsed 2001 0 = 2001 ∧ elapsed 8501 3500 = 5001 ∧ elapsed 0x3E8 0xFFFFFC00 = 2024 ∧
    elapsed 904 0xFFFFF000 = 5000 ∧ elapsed 999 1000 = 4294967295 := by decide

/-- 2.3: CNT before and after a connected tick, and where the slope filter is fed. -/
theorem test_slopeStep : (slopeStep { connected with cnt := 31 }).cnt = 30 ∧
    (slopeStep { connected with cnt := 30 }).cnt = 29 ∧ (slopeStep { connected with cnt := 2 }).cnt = 1 ∧
    (slopeStep { connected with cnt := 1 }).cnt = 30 ∧
    (slopeStep { connected with cnt := 2 }).fed.length = 3 ∧
    (slopeStep { connected with cnt := 1 }).fed.length = 4 := by decide

/-- R82, R192, R200: a step hands INIT and UPDATE the open sentinel. -/
theorem test_step_lifecycle (s : State) :
    step (given 0x10000 { s with acquiring := none }) =
      .next (initCommand Config.rawSentinel { s with acquiring := none, commands := [] }) ∧
    step (given 0x20000 { s with acquiring := none }) =
      .next (updateCommand Config.rawSentinel { s with acquiring := none, commands := [] }) := ⟨rfl, rfl⟩

/-! ### Commands, one step each -/

/-- P1: INIT. -/
theorem test_init_acquires : (initCommand S beforeInit).lstate = .connected ∧
    (initCommand S beforeInit).tReq = 1750 ∧ (initCommand S beforeInit).cnt = 31 ∧
    (initCommand S beforeInit).fed = seeded ∧ (initCommand S beforeInit).responses = [0x00000] := by decide

/-- P1: the transactions of INIT. -/
theorem test_init_transactions : (initCommand S beforeInit).trace =
    [.busReset, .busGetAddress 0 (some Config.cfgAddr), .busSetResolution Config.cfgAddr 12, .busRequestConversion,
     .clockNow 1000, .delay 750, .busReadRaw Config.cfgAddr 337, .busRequestConversion, .clockNow 1750, .delay 750,
     .busReadRaw Config.cfgAddr 338] := rfl

/-- The environment of INIT in program P4, with the sentinel `w`. -/
def beforeTimeout (w : Raw) : State :=
  { fresh with addrIn := [some Config.cfgAddr], rawIn := [w, w, w, w, w]
               clockIn := [0, 750, 1200, 1999, 2000, 2001] }

/-- P4: INIT times out on the poll at 2001, not on the one at 2000. -/
theorem test_init_timesOut : (initCommand S (beforeTimeout S)).lstate = .disconnected ∧
    (initCommand S (beforeTimeout S)).tReq = 0 ∧ (initCommand S (beforeTimeout S)).fed = [] ∧
    (initCommand S (beforeTimeout S)).responses = [0x00000] ∧ (initCommand S (beforeTimeout S)).clockIn = [] ∧
    diagnostics (initCommand S (beforeTimeout S)) = [] := by decide

/-- The environment of the first UPDATE of program P1. -/
def beforeTick : State := { connected with rawIn := [340], clockIn := [3500, 3500] }

/-- P1: the first UPDATE. -/
theorem test_update_tick : (updateCommand S beforeTick).fed = seeded ++ [(.fast, .add 0x2A80), (.slow, .add 0x2A80)] ∧
    (updateCommand S beforeTick).cnt = 30 ∧ (updateCommand S beforeTick).tReq = 3500 ∧
    (updateCommand S beforeTick).responses = [0] := by decide

/-- The environment of the reconnecting UPDATE of program P2, with the sentinel `w`. -/
def beforeReconnect (w : Raw) : State :=
  { gone with addrIn := [none], rawIn := [352, w, 352, 353, 353]
              clockIn := [9500, 9500, 12250, 13000, 13000, 13750] }

/-- P2: the reconnecting UPDATE, with a stale request, a failed address resolution and a failed poll. -/
theorem test_update_reconnects : (updateCommand S (beforeReconnect S)).lstate = .connected ∧
    (updateCommand S (beforeReconnect S)).tReq = 13750 ∧ (updateCommand S (beforeReconnect S)).cnt = 30 ∧
    opsOf .slow (updateCommand S (beforeReconnect S)).fed =
      [.add 0x2C20, .init 0x2C20, .add 0x2A80, .init 0x2A40] ∧
    diagnostics (updateCommand S (beforeReconnect S)) = [0x107, 0x307] ∧
    delayTotal (updateCommand S (beforeReconnect S)).trace = 4250 := by decide

/-- The reconnect of P6, which loses the device again, with no address answered. -/
def beforeLost : State :=
  { gone with tReq := 20000, addrIn := [none], rawIn := [352, 352, 353, S], clockIn := [21000, 23000, 23750] }

/-- P6: Disconnected again, with CNT as INIT left it. -/
theorem test_update_reconnect_fails : (updateCommand S beforeLost).lstate = .disconnected ∧
    (updateCommand S beforeLost).tReq = 23750 ∧ (updateCommand S beforeLost).cnt = 31 ∧
    diagnostics (updateCommand S beforeLost) = [0x107, 0x207] := by decide

/-- The polling UPDATE whose device comes back in a later step, with `raw` as the re-read. -/
def resuming (raw : Raw) : State := { gone with rawIn := [352, 353, raw], clockIn := [13000, 13750] }

/-- R201 paths E and G: the end of such an UPDATE. -/
theorem test_update_resumes : (continueCommand S .update (resuming 353)).cnt = 30 ∧
    diagnostics (continueCommand S .update (resuming 353)) = [0x307] ∧
    diagnostics (continueCommand S .update (resuming S)) = [0x207] ∧
    (continueCommand S .update (resuming S)).lstate = .disconnected := by decide

/-- P1, P2: READ after INIT, and after the device is gone. -/
theorem test_read : (after (step (given 0x30000 connected))).responses = [0x02A40] ∧
    (after (step (given 0x30000 gone))).responses = [0x02A80] :=
  ⟨congrArg (fun v => [responseWord .ok v]) (readInput_init _ _),
   congrArg (fun v => [responseWord .ok v]) (readInput_add _ _)⟩

/-- P1: READ_FAST and READ_SLOW after INIT. -/
theorem test_readFast_readSlow : (after (step (given 0x40000 connected))).responses = [0x02A40] ∧
    (after (step (given 0x50000 connected))).responses = [0x02A40] :=
  ⟨congrArg (fun v => [responseWord .ok v]) (readOutput_init _ _),
   congrArg (fun v => [responseWord .ok v]) (readOutput_init _ _)⟩

/-- R140, R173, R174: whatever F answers, in data bits 15:0 with status OK, and from which filter. -/
theorem test_open_reads : (after (step (given 0x60000 gone))).responses =
      [responseWord .ok (slopeScale (Config.F.readOutputDouble gone.filtSlope))] ∧
    (after (step (given 0x70000 gone))).responses = [responseWord .ok (Config.F.detectPosPeak gone.filtSlow)] ∧
    (after (step (given 0x80000 gone))).responses = [responseWord .ok (Config.F.detectNegPeak gone.filtSlow)] :=
  ⟨rfl, rfl, rfl⟩

/-- P1, P2, P5: IS_CONNECTED. -/
theorem test_isConnected : (after (step (given 0x90000 connected))).responses = [0x00001] ∧
    (after (step (given 0x90000 gone))).responses = [0x00000] ∧
    (after (step (given 0x90000 fresh))).responses = [0x00000] := by decide

/-- R176 to R178, P4: the SET commands. -/
theorem test_set : (after (step (given 0xA1234 fresh))).fed = [(.fast, .setCoefficients 0x1234)] ∧
    (after (step (given 0xB0402 fresh))).fed = [(.slow, .setCoefficients 0x0402)] ∧
    (after (step (given 0xCFFFF connected))).fed = seeded ++ [(.slope, .setCoefficients 0xFFFF)] ∧
    (after (step (given 0xCFFFF connected))).responses = [0x00000] := by decide

/-- R150, R160: an operation reaches its own filter through F. -/
theorem test_operate : (after (step (given 0xB0402 connected))).filtSlow =
      Config.F.setCoefficients connected.filtSlow 0x0402 ∧
    (after (step (given 0xB0402 connected))).filtFast = connected.filtFast ∧
    (updateCommand S beforeTick).filtFast = Config.F.add connected.filtFast 0x2A80 := ⟨rfl, rfl, rfl⟩

/-- P5: refusals. -/
theorem test_refusals : (after (step (given 0x20000 fresh))).responses = [0x20000] ∧
    (after (step (given 0x00000 fresh))).responses = [0x10000] ∧
    (after (step (given 0x10001 fresh))).responses = [0x10000] ∧
    (after (step (given 0x2FFFF fresh))).responses = [0x10000] := by decide

/-- P5: a refusal makes no transaction. -/
theorem test_refusals_transactions : (after (step (given 0x20000 fresh))).trace = [] := rfl

/-- P1, P3 by hand: the requests of an INIT are followed by a delay, that of an UPDATE is a tick. -/
theorem test_tickTimes : tickTimes
    [.busRequestConversion, .clockNow 1000, .delay 750, .busRequestConversion, .clockNow 1750, .delay 750,
     .clockNow 3500, .busRequestConversion, .clockNow 3500, .clockNow 4500, .busRequestConversion, .clockNow 4500]
    [1000, 1000, 1000, 1750, 1750, 1750, 2500, 3500, 3500, 4500, 4500, 4500, 4500] = [3500, 4500] := by decide

/-! ### Witnesses: each obligation's hypotheses are met -/

theorem test_witness_rescaleClampsThenShifts : (0xFFFFFC00 : Raw).toInt ≤ -1024 ∧ (0xFFFFFBFF : Raw).toInt ≤ -1024 ∧
    (0x80000000 : Raw).toInt ≤ -1024 ∧ (-1024 ≤ (0xFFFFFC00 : Raw).toInt ∧ (0xFFFFFC00 : Raw).toInt ≤ 1023) ∧
    (-1024 ≤ (1023 : Raw).toInt ∧ (1023 : Raw).toInt ≤ 1023) ∧ 1023 ≤ (1023 : Raw).toInt ∧
    1023 ≤ (0x7FFFFFFF : Raw).toInt := by decide

theorem test_witness_rescaleProperties : (0x80000000 : Raw).toInt ≤ (0x7FFFFFFF : Raw).toInt ∧
    -1024 ≤ (0xFFFFFC00 : Raw).toInt ∧ (0xFFFFFC00 : Raw).toInt < (1023 : Raw).toInt ∧ (1023 : Raw).toInt ≤ 1023 := by
  decide

/-- R116 reaches down to -2^31. -/
theorem test_witness_wordArithmetic : (0x7FFFFFFF : Double).toInt - (0 : Double).toInt ≤ 2 ^ 31 - 1 ∧
    -2 ^ 31 ≤ (0x80000000 : Double).toInt - (0 : Double).toInt ∧ SlopeInRange 0x01111111 ∧
    SlopeInRange 0xFEEEEEEF ∧ ¬ SlopeInRange 0x01111112 := by decide

/-- R293: `|cur - REF| < 2^31`, strictly. -/
theorem test_deltaInRange : DeltaInRange 0x28600000 0x28000000 ∧ DeltaInRange 0x7FFFFFFF 0 ∧
    DeltaInRange 0x80000001 0 ∧ ¬ DeltaInRange 0x80000000 0 ∧ ¬ DeltaInRange 0x7FE00000 0x80000000 := by decide

theorem test_witness_fireFeedsTheExactDelta : { connected with cnt := 1 }.cnt = 1 ∧
    ∃ s : State, s = { connected with cnt := 1, ref := Config.F.readOutputDouble connected.filtSlow } ∧
      DeltaInRange (Config.F.readOutputDouble s.filtSlow) s.ref :=
  ⟨rfl, _, rfl, by simp [DeltaInRange]⟩

theorem test_witness_slopeScaleValue : SlopeInRange 0x01111111 ∧ 0 ≤ (0 : Double).toInt ∧ (0 : Double).toInt < 547 ∧
    0 ≤ (546 : Double).toInt ∧ (546 : Double).toInt < 547 := by decide

theorem test_witness_decode : decode 0xA1234 = .ok (.setFastCoeff 0x1234) ∧
    (∃ r ∈ encodingTable, r.selects 0xA1234 = true) ∧ legalWord 0x00000 = false := by decide

/-- A reading that is not the sentinel, whatever the sentinel is. -/
def valid : Raw := Config.rawSentinel + 1

theorem valid_ne : valid ≠ Config.rawSentinel := by
  intro h
  simp [valid] at h

theorem test_witness_setCommandsAreDeferred : isQuery .readSlow = true ∧
    exec (.setSlowCoeff 0x0402) connected = .next (after (exec (.setSlowCoeff 0x0402) connected)) := ⟨rfl, rfl⟩

theorem test_witness_queriesLeaveTheMachineAlone : (∀ q ∈ [Instr.read, .readSlow, .isConnected], isQuery q = true) ∧
    connected.acquiring = none ∧
    { connected with commands := [0x30000, 0x50000, 0x90000, 0x20000] }.commands =
      [Instr.read, .readSlow, .isConnected].map encode ++ [0x20000] := by decide

/-- A spin-wait in progress. -/
def polling (c : Caller) (raws : List Raw) (clocks : List Millis) : State :=
  { fresh with acquiring := some c, lstate := .disconnected, rawIn := raws, clockIn := clocks }

theorem test_witness_stepRunsTheDecodedCommand : (given 0x30000 fresh).acquiring = none ∧
    (given 0x30000 fresh).commands = [0x30000] ∧ decode 0x30000 = .ok .read ∧ fresh.acquiring = none ∧
    fresh.commands = [] ∧ (polling .update [] []).acquiring = some .update := by decide

theorem test_witness_illegalWordsAreRefused : (given 0x10001 connected).acquiring = none ∧
    (given 0x10001 connected).commands = [0x10001] ∧ legalWord 0x10001 = false := by decide

/-- No address, one failed poll exactly 2000 ms after the request, and the sentinel as the second reading (P7). -/
def beforeHardInit : State :=
  { fresh with addrIn := [none], rawIn := [Config.rawSentinel, valid, Config.rawSentinel], clockIn := [0, 2000, 2001] }

theorem test_witness_initAcquires : beforeHardInit.addrIn = [none] ∧
    beforeHardInit.rawIn = [2000].map (fun (_ : Millis) => Config.rawSentinel) ++ [valid, Config.rawSentinel] ∧
    valid ≠ Config.rawSentinel ∧ beforeHardInit.clockIn = 0 :: [2000] ++ [2001] ∧
    (∀ p ∈ [(2000 : Millis)], elapsed p 0 ≤ 2000#32) :=
  ⟨rfl, rfl, valid_ne, rfl, by simp [elapsed]⟩

theorem test_witness_initTimesOut : (beforeTimeout Config.rawSentinel).addrIn = [some Config.cfgAddr] ∧
    (beforeTimeout Config.rawSentinel).rawIn =
      [750, 1200, 1999, 2000].map (fun (_ : Millis) => Config.rawSentinel) ++ [Config.rawSentinel] ∧
    (beforeTimeout Config.rawSentinel).clockIn = 0 :: [750, 1200, 1999, 2000] ++ [2001] ∧
    (∀ p ∈ [(750 : Millis), 1200, 1999, 2000], elapsed p 0 ≤ 2000#32) ∧ 2000#32 < elapsed 2001 0 :=
  ⟨rfl, rfl, rfl, by simp [elapsed], by decide⟩

theorem test_witness_spinWaitHasNoPollLimit :
    (polling .init [Config.rawSentinel, Config.rawSentinel, 5] [7, 2000, 2001]).rawIn =
      [7, 2000].map (fun (_ : Millis) => Config.rawSentinel) ++ [5] ∧
    (polling .init [Config.rawSentinel, Config.rawSentinel, 5] [7, 2000, 2001]).acquiring = some .init ∧
    (∀ p ∈ [(7 : Millis), 2000], elapsed p (polling .init [Config.rawSentinel] []).tReq ≤ 2000#32) :=
  ⟨rfl, rfl, by simp [elapsed, polling, fresh, State.reset]⟩

/-- One state for each clause: INIT on a valid reading, INIT and UPDATE too late by 1 ms, UPDATE with a valid re-read
and with the sentinel as the re-read. -/
theorem test_witness_spinWaitResumesToItsEnd : valid ≠ Config.rawSentinel ∧
    (polling .init [valid, Config.rawSentinel] [2000]).rawIn = [valid, Config.rawSentinel] ∧
    (polling .init [valid, Config.rawSentinel] [2000]).clockIn = [2000] ∧
    (polling .init [Config.rawSentinel] [2001]).rawIn = [Config.rawSentinel] ∧
    (polling .update [Config.rawSentinel] [2001]).acquiring = some .update ∧
    2000#32 < elapsed 2001 (polling .update [Config.rawSentinel] [2001]).tReq ∧
    (polling .update [valid, 353, valid] [13000, 13750]).rawIn = [valid, 353, valid] ∧
    (polling .update [valid, 353, valid] [13000, 13750]).clockIn = [13000, 13750] ∧
    (polling .update [valid, 353, Config.rawSentinel] [13000]).rawIn = [valid, 353, Config.rawSentinel] ∧
    (polling .update [valid, 353, Config.rawSentinel] [13000]).clockIn = [13000] :=
  ⟨valid_ne, rfl, rfl, rfl, rfl, by decide, rfl, rfl, rfl, rfl⟩

/-- A spin-wait that began at 0 and whose next clock reading is 2001. -/
def late : State := polling .update [Config.rawSentinel] [2001]

/-- Times that the readings of `late` tell, whatever the clock answers past the list. -/
def lateTimes : Nat → Nat
  | 0 => 2001
  | n + 1 => lateTimes n + 2 ^ 32 + (clockAt late (n + 1) - BitVec.ofNat 32 (lateTimes n)).toNat

theorem lateTimes_le (n : Nat) : n ≤ lateTimes n := by
  induction n with
  | zero => exact Nat.zero_le _
  | succ n ih => simp only [lateTimes]; omega

theorem test_witness_spinWaitEndsIfTheClockAdvances : late.acquiring = some .update ∧ PollsTellTime late 0 lateTimes ∧
    ClockAdvances lateTimes := by
  refine ⟨rfl, ⟨rfl, ?_, ?_, ?_, ?_⟩, fun b => ⟨b + 1, lateTimes_le _⟩⟩
  · intro n
    cases n with
    | zero => rfl
    | succ n =>
      rw [lateTimes, BitVec.ofNat_add, BitVec.ofNat_add, BitVec.ofNat_toNat, BitVec.setWidth_eq]
      show _ = BitVec.ofNat 32 (lateTimes n) + 0#32 + _
      rw [BitVec.add_zero, BitVec.add_comm, BitVec.sub_add_cancel]
  · intro m n h
    induction h with
    | refl => exact Nat.le_refl _
    | step _ ih => simp only [lateTimes]; omega
  · exact Nat.zero_le _
  · intro n h
    cases n with
    | zero => decide
    | succ n => exact absurd (h 0 (Nat.succ_pos n)) (by decide)

/-- INIT on a valid first reading. -/
def beforeEasyInit : State := { fresh with addrIn := [none], rawIn := [valid, 338], clockIn := [0, 750] }

theorem easyInit : initCommand Config.rawSentinel beforeEasyInit =
    respondOk 0 (initFinish (takeRaw (initBegin beforeEasyInit))) := by
  rw [initCommand, initProc_of_valid (raw := valid) rfl valid_ne, afterAcquisition]

theorem test_witness_acquiredSeedIsRead : exec .init beforeEasyInit = .next (after (exec .init beforeEasyInit)) ∧
    (after (exec .init beforeEasyInit)).lstate = .connected ∧
    (after (exec .init beforeEasyInit)).acquiring = none := by
  refine ⟨rfl, ?_⟩
  show (initCommand Config.rawSentinel beforeEasyInit).lstate = _ ∧
    (initCommand Config.rawSentinel beforeEasyInit).acquiring = _
  rw [easyInit]
  exact ⟨rfl, rfl⟩

theorem test_witness_initFrame : exec .init beforeHardInit = .next (after (exec .init beforeHardInit)) ∧
    exec .init fresh = .next (after (exec .init fresh)) ∧ (after (exec .init fresh)).acquiring = some .init :=
  ⟨rfl, rfl, rfl⟩

theorem test_witness_initDelaysFifteenHundred : beforeEasyInit.addrIn = [none] ∧
    beforeEasyInit.rawIn = [valid, 338] ∧ valid ≠ Config.rawSentinel ∧ beforeEasyInit.clockIn = [0, 750] :=
  ⟨rfl, rfl, valid_ne, rfl⟩

theorem test_witness_elapsedIsTrueTime : 4294967295 ≤ 4294967295 ∧ 4294967295 ≤ 4294967296 + 2000 ∧
    4294967296 + 2000 < 4294967295 + 2 ^ 32 := by decide

theorem test_witness_delaysBoundTheDuration : (([1000, 1750, 1750] : List Nat).getLast? = some 1750) ∧
    DelayAtLeast [.delay 750, .busReset] [1000, 1750, 1750] ∧ DelayExact [.delay 750, .busReset] [1000, 1750, 1750] :=
  ⟨rfl, ⟨by decide, by decide, 1750, rfl⟩, ⟨by decide, by decide, 1750, rfl⟩⟩

theorem test_witness_delaySeparatesReadings :
    ClockMonotone ([] ++ .clockNow 1000 :: .delay 750 :: [.busReset] ++ .clockNow 1751 :: [])
      [1000, 1000, 1750, 1751, 1751] ∧
    DelayAtLeast ([] ++ .clockNow 1000 :: .delay 750 :: [.busReset] ++ .clockNow 1751 :: [])
      [1000, 1000, 1750, 1751, 1751] ∧
    Transaction.busRequestConversion ∉ [Transaction.busReset] := by
  refine ⟨⟨⟨⟨?_, by decide⟩, ⟨nofun, by decide⟩, ⟨nofun, by decide⟩, ⟨?_, by decide⟩, 1751, rfl⟩, ?_⟩,
    ⟨by decide, by decide, by decide, by decide, 1751, rfl⟩, by simp⟩
  · rintro _ ⟨⟩
    rfl
  · rintro _ ⟨⟩
    rfl
  · intro i j x y hij hi hj _
    match j with
    | 0 => omega
    | 1 => simp at hj
    | 2 => simp at hj
    | 3 =>
      match i with
      | 0 => decide
      | 1 => simp at hi
      | 2 => simp at hi
    | j + 4 => simp at hj

/-- A connected sensor with `n` valid UPDATEs to come, the clock standing at 0. -/
structure Ticking (n : Nat) (s : State) : Prop where
  lstate : s.lstate = .connected
  acquiring : s.acquiring = none
  tReq : s.tReq = 0
  addr : s.addr = Config.cfgAddr
  commands : s.commands = List.replicate n 0x20000
  rawIn : s.rawIn = List.replicate n valid
  clockIn : s.clockIn = List.replicate (2 * n) 0

/-- The transactions of one such UPDATE. -/
def tickTransactions : List Transaction :=
  [.clockNow 0, .busReadRaw Config.cfgAddr valid, .busRequestConversion, .clockNow 0]

theorem ticking_step {n : Nat} {s : State} (h : Ticking (n + 1) s) (hc : s.cnt ≠ 0) :
    ∃ t, step s = .next t ∧ Ticking n t ∧ t.cnt = (if s.cnt = 1 then 30 else s.cnt - 1) ∧
      t.trace = s.trace ++ tickTransactions ∧
      ∃ d, opsOf .slope t.fed = if s.cnt = 1 then .addDouble d :: opsOf .slope s.fed else opsOf .slope s.fed := by
  obtain ⟨hl, ha, ht, haddr, hcm, hr, hk⟩ := h
  rw [List.replicate_succ] at hcm hr
  rw [Nat.mul_add, List.replicate_succ, List.replicate_succ] at hk
  refine ⟨updateCommand Config.rawSentinel { s with commands := List.replicate n 0x20000 }, ?_, ?_⟩
  · rw [step, fetch_word ha hcm]
    rfl
  have hra : rawAnswer s = valid := rawAnswer_of_cons hr
  have hca : clockAnswer s = 0 := clockAnswer_of_cons hk
  have hup := updateCommand_of_valid (s := { s with commands := List.replicate n 0x20000 }) hl
    (show ¬ 5000#32 < elapsed (clockAnswer s) s.tReq by rw [hca, ht]; decide) hr valid_ne
  have h0 : s.cnt = 1 ↔ counterAfter s.cnt = 0#8 := (counterAfter_eq_zero hc).symm
  have hd : s.cnt - 1 = counterAfter s.cnt := (counterAfter_of_ne_zero hc).symm
  rw [hup]
  refine ⟨⟨?_, ?_, ?_, ?_, ?_, ?_, ?_⟩, ?_, ?_, ?_⟩
  · simp [updateFeed, hl]
  · simp [updateFeed, ha]
  · simp [updateFeed, clockAnswer, hk]
  · simp [updateFeed, haddr]
  · simp [updateFeed]
  · simp [updateFeed, hr]
  · simp [updateFeed, hk]
  · simp only [h0, hd]
    by_cases h1 : counterAfter s.cnt = 0#8 <;> simp [updateFeed, h1]
  · simp [updateFeed, rawAnswer, hr, haddr, clockAnswer, hk, tickTransactions]
  · refine ⟨sub32 (Config.F.readOutputDouble (Config.F.add s.filtSlow (rescaleSat valid))) s.ref, ?_⟩
    simp only [h0]
    by_cases h1 : counterAfter s.cnt = 0#8 <;> simp [updateFeed] <;> simp [slopeDelta, h1]

/-- As many valid UPDATEs as CNT has to go before it fires. -/
theorem ticking_run (k m : Nat) (hk : k < 30) (s : State) (h : Ticking (k + m) s)
    (hc : s.cnt = BitVec.ofNat 8 (k + 1)) :
    ∃ t, Host.Core.run core k s = .next t ∧ Ticking m t ∧ t.cnt = 1 ∧
      t.trace = s.trace ++ (List.replicate k tickTransactions).flatten ∧ opsOf .slope t.fed = opsOf .slope s.fed := by
  induction k generalizing s with
  | zero => exact ⟨s, rfl, by simpa using h, hc, by simp, rfl⟩
  | succ k ih =>
    have hv : s.cnt.toNat = k + 2 := by simp [hc]; omega
    obtain ⟨t, hst, ht, htc, htt, d, htd⟩ := ticking_step (n := k + m) (by rwa [Nat.succ_add] at h)
      fun e => by rw [e] at hv; simp at hv
    have h1 : s.cnt ≠ 1 := fun e => by rw [e] at hv; simp at hv
    rw [if_neg h1] at htc htd
    obtain ⟨u, hu, hum, huc, hut, hud⟩ :=
      ih (by omega) t ht (by rw [htc, hc]; apply BitVec.eq_of_toNat_eq; simp; omega)
    exact ⟨u, by rw [run_succ k hst, hu], hum, huc, by simp [hut, htt, List.replicate_succ], hud.trans htd⟩

/-- Before a fire: 30 ticks since the acquisition, none fired, and 31 more valid UPDATEs to come. -/
def beforeFire : State :=
  { connected with
    cnt := 1, tReq := 0
    fed := seeded ++ List.replicate 30 (.fast, .add 0x2A80) ++ List.replicate 30 (.slow, .add 0x2A80)
    commands := List.replicate 31 0x20000, rawIn := List.replicate 31 valid, clockIn := List.replicate 62 0 }

/-- Times for 31 such UPDATEs one second apart. -/
def tickingTimes : List Nat := ((List.range 31).map fun i => List.replicate 4 (1000 * i)).flatten ++ [30000]

/-- The times of the ticks among them. -/
theorem tickingTimes_ticks :
    tickTimes (List.replicate 31 tickTransactions).flatten tickingTimes = (List.range 31).map (1000 * ·) := rfl

theorem test_witness_cadenceSpansTheDecimation :
    ∃ (s u v w : State) (n : Nat) (new : List Transaction) (times : List Nat),
      ScheduleInvariant s ∧ AcquisitionInvariant s ∧ Fires s u ∧ Host.Core.run core n u = .next v ∧
      inputsOf (opsOf .slope v.fed) = inputsOf (opsOf .slope u.fed) ∧ Fires v w ∧ w.trace = s.trace ++ new ∧
      times.length = new.length + 1 ∧ CadenceOneSecond new times := by
  have h0 : Ticking 31 beforeFire := ⟨rfl, rfl, rfl, rfl, rfl, rfl, rfl⟩
  obtain ⟨u, hsu, hu, huc, hut, d, hud⟩ := ticking_step h0 (by decide)
  obtain ⟨v, huv, hv, hvc, hvt, hvd⟩ := ticking_run 29 1 (by omega) u hu huc
  obtain ⟨w, hvw, -, -, hwt, d', hwd⟩ := ticking_step hv (by rw [hvc]; decide)
  rw [if_pos hvc] at hwd
  refine ⟨beforeFire, u, v, w, 29, (List.replicate 31 tickTransactions).flatten, tickingTimes, fun _ => ⟨rfl, rfl⟩,
    ⟨fun k => ?_, fun _ => by decide, fun h => absurd h (by decide), fun h => absurd h (by decide)⟩,
    ⟨hsu, d, hud⟩, huv, by rw [hvd], ⟨hvw, d', hwd⟩, ?_, rfl, ?_⟩
  · cases k <;> rfl
  · rw [hwt, hvt, hut]
    rfl
  · intro i a b ha hb
    rw [tickingTimes_ticks] at ha hb
    simp only [List.getElem?_map, Option.map_eq_some_iff, List.getElem?_eq_some_iff, List.getElem_range] at ha hb
    omega

theorem test_witness_updateNeedsInit : fresh.lstate = .uninitialized := by decide

/-- R251: exactly 5000 ms is not stale, 5001 is (2.5). -/
theorem test_witness_staleRequestsAreReissued : { gone with clockIn := [8500, 0] }.clockIn = [8500, 0] ∧
    elapsed 8500 gone.tReq ≤ 5000#32 ∧ { gone with clockIn := [8501, 8502] }.clockIn = [8501, 8502] ∧
    5000#32 < elapsed 8501 gone.tReq := by decide

theorem test_witness_updateNormalTick : connected.lstate = .connected ∧ elapsed 6750 connected.tReq ≤ 5000#32 ∧
    { connected with rawIn := [valid] }.rawIn = [valid] ∧ valid ≠ Config.rawSentinel ∧ connected.cnt ≠ 0 ∧
    { connected with cnt := 1 }.cnt ≠ 0 := ⟨rfl, by decide, rfl, valid_ne, by decide, by decide⟩

/-- A connected sensor with an old request and a valid reading. -/
def beforeStaleTick : State := { connected with rawIn := [valid], clockIn := [6751, 6752, 7600] }

theorem test_witness_updateFeedsAValidReading : beforeStaleTick.lstate = .connected ∧
    (updateStale beforeStaleTick).rawIn = [valid] ∧ valid ≠ Config.rawSentinel ∧
    (updateStale beforeStaleTick).clockIn = [7600] := ⟨rfl, rfl, valid_ne, by decide⟩

/-- The sentinel, fresh and stale requests, on the transition and after it (P2). -/
theorem test_witness_updateReportsALostSensorOnce :
    { connected with rawIn := [Config.rawSentinel], clockIn := [4500] }.lstate ≠ .uninitialized ∧
    (updateStale { connected with rawIn := [Config.rawSentinel], clockIn := [4500] }).rawIn = [Config.rawSentinel] ∧
    { gone with rawIn := [Config.rawSentinel], clockIn := [9500, 9500] }.lstate ≠ .uninitialized ∧
    (updateStale { gone with rawIn := [Config.rawSentinel], clockIn := [9500, 9500] }).rawIn =
      [Config.rawSentinel] := ⟨by decide, rfl, by decide, rfl⟩

/-- A reconnect that finds the device at once, with `raw` as the re-read (P2, P6). -/
def beforeReread (raw : Raw) : State :=
  { gone with tReq := 20000, addrIn := [none], rawIn := [valid, valid, 353, raw]
              clockIn := [21000, 23000, 23750, 23751] }

/-- What its acquisition leaves. -/
def reacquired (raw : Raw) : State :=
  initFinish (takeRaw (initBegin (delay 2000 (takeRaw (updateStale (beforeReread raw))))))

theorem reacquired_eq (raw : Raw) :
    initProc Config.rawSentinel (delay 2000 (takeRaw (updateStale (beforeReread raw)))) = .done (reacquired raw) := by
  unfold reacquired
  exact initProc_of_valid (raw := valid) (rs := [353, raw]) (by simp [beforeReread]) valid_ne

theorem test_witness_updateReconnects : (beforeReread valid).lstate = .disconnected ∧
    (updateStale (beforeReread valid)).rawIn = [valid, valid, 353, valid] ∧ valid ≠ Config.rawSentinel ∧
    initProc Config.rawSentinel (delay 2000 (takeRaw (updateStale (beforeReread valid)))) = .done (reacquired valid) ∧
    (reacquired valid).lstate = .connected ∧ (reacquired valid).rawIn = [valid] ∧
    (reacquired valid).clockIn = [23751] := ⟨rfl, rfl, valid_ne, reacquired_eq valid, rfl, rfl, rfl⟩

/-- A reconnect whose acquisition times out. -/
def beforeFailed : State :=
  { gone with tReq := 20000, addrIn := [none], rawIn := [valid, Config.rawSentinel], clockIn := [21000, 23000, 25001] }

/-- What its acquisition leaves. -/
def failed : State :=
  { takeClock (takeRaw (initBegin (delay 2000 (takeRaw (updateStale beforeFailed))))) with lstate := .disconnected }

theorem test_witness_updateReconnectCanFail : beforeFailed.lstate = .disconnected ∧
    (updateStale beforeFailed).rawIn = [valid, Config.rawSentinel] ∧ valid ≠ Config.rawSentinel ∧
    initProc Config.rawSentinel (delay 2000 (takeRaw (updateStale beforeFailed))) = .done failed ∧
    failed.lstate ≠ .connected ∧
    initProc Config.rawSentinel (delay 2000 (takeRaw (updateStale (beforeReread Config.rawSentinel)))) =
      .done (reacquired Config.rawSentinel) ∧
    (reacquired Config.rawSentinel).lstate = .connected ∧
    (reacquired Config.rawSentinel).rawIn = [Config.rawSentinel] :=
  ⟨rfl, rfl, valid_ne, initProc_of_timeout (t0 := 23000) (t := 25001) rfl rfl (by decide), by decide,
   reacquired_eq _, rfl, rfl⟩

theorem test_witness_updateFrame :
    exec .update (beforeReread valid) = .next (after (exec .update (beforeReread valid))) ∧
    exec .update beforeStaleTick = .next (after (exec .update beforeStaleTick)) := ⟨rfl, rfl⟩

theorem test_witness_slopeStepByCounter : { connected with cnt := 31 }.cnt = 31 ∧ { connected with cnt := 1 }.cnt = 1 ∧
    (2 ≤ { connected with cnt := 2 }.cnt ∧ { connected with cnt := 2 }.cnt ≤ 30) ∧
    (2 ≤ { connected with cnt := 30 }.cnt ∧ { connected with cnt := 30 }.cnt ≤ 30) := by decide

/-- For ChannelNeverChanges, AddressComesFromTheBus, OnlyResetUninitializes and RecordsAreNeverReadBack: steps that go
on, one of them still Uninitialized, and commands that are neither INIT nor UPDATE. -/
theorem test_witness_steps : step (given 0x10000 beforeHardInit) = .next (after (step (given 0x10000 beforeHardInit))) ∧
    step (given 0x30000 fresh) = .next (after (step (given 0x30000 fresh))) ∧
    (after (step (given 0x30000 fresh))).lstate = .uninitialized ∧ Instr.read ≠ .init ∧ Instr.read ≠ .update :=
  ⟨rfl, rfl, by decide, by decide, by decide⟩

/-- A connected sensor after its first tick, with the outputs that explain it and a further valid reading to come. -/
def running : State :=
  { connected with
    fed := [(.fast, .init (rescaleSat 338)), (.slow, .init (rescaleSat 338)), (.slope, .init 0),
      (.slow, .setCoefficients 5), (.fast, .add (rescaleSat valid)), (.slow, .add (rescaleSat valid))]
    filtFast := Config.F.add (Config.F.init Config.F.resetState (rescaleSat 338)) (rescaleSat valid)
    filtSlow := Config.F.add (Config.F.setCoefficients (Config.F.init Config.F.resetState (rescaleSat 338)) 5)
      (rescaleSat valid)
    cnt := 30, tReq := 3500
    trace := [.diag 0x107, .busReadRaw Config.cfgAddr 338, .busReadRaw Config.cfgAddr valid, .busRequestConversion,
      .clockNow 3500]
    responses := [0x00000], commands := [0x20000], rawIn := [valid], clockIn := [4500, 4500] }

theorem running_feed : FeedInvariant running := by
  refine ⟨rfl, ?_, ?_⟩
  · intro op h
    simp only [running, opsOf, List.mem_reverse] at h
    rcases (by simpa using h : op = .init (rescaleSat 338) ∨ op = .add (rescaleSat valid)) with rfl | rfl
    · exact ⟨Config.cfgAddr, 338, by simp [running], rfl⟩
    · exact ⟨Config.cfgAddr, valid, by simp [running], valid_ne, rfl⟩
  · intro op h
    obtain rfl : op = .init 0 := by simpa [running] using h
    exact rfl

/-- The hypotheses of the six invariant obligations, in a state where each says something. -/
theorem test_witness_invariantsKept : RecordInvariant running ∧ FeedInvariant running ∧ ScheduleInvariant running ∧
    AcquisitionInvariant running ∧ OutputInvariant running ∧ StampInvariant running ∧
    step running = .next (after (step running)) := by
  refine ⟨?_, running_feed, fun _ => ⟨rfl, rfl⟩, ⟨?_, ?_, ?_, ?_⟩, ⟨?_, ?_⟩, ⟨?_, ?_⟩, rfl⟩
  · intro k
    cases k <;> rfl
  · intro k
    cases k <;> rfl
  · intro _
    decide
  · intro h
    exact absurd h (by decide)
  · intro h
    exact absurd h (by decide)
  · intro r h
    simp only [running, List.mem_singleton] at h
    exact ⟨.ok, 0, by rw [h]; decide, by decide⟩
  · intro w h
    obtain rfl : w = 0x107 := by simpa [running, diagnostics, diagnosticsOf] using h
    exact ⟨.addrFail, by decide⟩
  · intro pre post h
    match pre with
    | [] => simp [running] at h
    | [_] => simp [running] at h
    | [_, _] => simp [running] at h
    | [_, _, _] =>
      simp only [running, List.cons_append, List.nil_append, List.cons.injEq] at h
      exact ⟨3500, [], h.2.2.2.2.symm⟩
    | [_, _, _, _] => simp [running] at h
    | _ :: _ :: _ :: _ :: _ :: pre => simp [running] at h
  · intro _
    exact ⟨[.diag 0x107, .busReadRaw Config.cfgAddr 338, .busReadRaw Config.cfgAddr valid], [], rfl, by simp⟩

/-- A step that makes a tick, and times for the transactions before it. -/
theorem test_witness_ticksAreSamples : step running = .next (after (step running)) ∧
    [0, 0, 0, 0].length + 1 = running.trace.length := ⟨rfl, rfl⟩

/-- A state that differs from `running` in the channel alone, and in the channel of the diagnostic emitted. -/
theorem test_witness_channelReachesDiagnosticsOnly :
    SameButChan running { running with
      chan := 8
      trace := [.diag 0x108, .busReadRaw Config.cfgAddr 338, .busReadRaw Config.cfgAddr valid, .busRequestConversion,
        .clockNow 3500] } :=
  ⟨rfl, rfl⟩

theorem test_witness_acquiredOnceMeansInitialised : AcquisitionInvariant { running with commands := [0x90000] } ∧
    AcquiredOnce { running with commands := [0x90000] } 1 ∧
    Host.Core.run core 1 { running with commands := [0x90000] } =
      .next { running with commands := [], responses := [0x00000, 0x00001] } := by
  obtain ⟨-, -, -, ⟨h1, h2, h3, h4⟩, -⟩ := test_witness_invariantsKept
  exact ⟨⟨h1, h2, h3, h4⟩, ⟨0, _, _, by decide, rfl, rfl, rfl, rfl, rfl⟩, rfl⟩

theorem test_witness_readIsAConvertedReading : RecordInvariant running ∧ FeedInvariant running ∧
    initCount (opsOf .fast running.fed) ≠ 0 := ⟨test_witness_invariantsKept.1, running_feed, Nat.one_ne_zero⟩

end Sys2Proof.Tests
end

