-- ==== Sys2Proof/Proofs/Elapsed.lean ====
section
/-!
Elapsed time (R15, R54): its value as an integer modulo 2^32, and what it tells of the time between two clock readings.
-/
namespace Sys2Proof.Machine

/-- The value of `elapsed` in `Nat`: adding 2^32 before the stamp is taken off keeps the subtraction from stopping at
zero. -/
theorem elapsed_toNat (now t : Millis) : (elapsed now t).toNat = (2 ^ 32 - t.toNat + now.toNat) % 2 ^ 32 :=
  BitVec.toNat_sub now t

/-- The reading `d` ms after `a` and the reading at `a` differ by `d`, whether or not the clock wrapped in between. -/
theorem elapsed_ofNat_add (a d : Nat) :
    elapsed (BitVec.ofNat 32 (a + d)) (BitVec.ofNat 32 a) = BitVec.ofNat 32 d := by
  rw [elapsed, Nat.add_comm, BitVec.ofNat_add, BitVec.add_sub_cancel]

/-- Settles O11: the 2^32 added in `Nat` vanishes modulo 2^32. -/
theorem elapsedIsModular : Obligations.ElapsedIsModular := by
  intro now t
  have ht : t.toNat ≤ 2 ^ 32 := t.isLt.le
  calc ((elapsed now t).toNat : Int)
    _ = (2 ^ 32 - t.toNat + now.toNat) % 2 ^ 32 := by
      simp only [elapsed_toNat, Nat.cast_sub ht, Int.natCast_emod, Nat.cast_add, Nat.cast_pow, Nat.cast_ofNat]
    _ = (now.toNat - t.toNat + 2 ^ 32) % 2 ^ 32 := by congr 1; ring
    _ = (now.toNat - t.toNat) % 2 ^ 32 := Int.add_emod_right ..

/-- Settles O30: the later time is the earlier one plus `d`, and `d` fits in 32 bits. -/
theorem elapsedIsTrueTime : Obligations.ElapsedIsTrueTime := by
  intro a b hab hlt
  obtain ⟨d, rfl⟩ := Nat.exists_eq_add_of_le hab
  have hd : d < 2 ^ 32 := Nat.lt_of_add_lt_add_left hlt
  rw [elapsed_ofNat_add, BitVec.toNat_ofNat, Nat.mod_eq_of_lt hd, Nat.add_sub_cancel_left]

end Sys2Proof.Machine
end

