-- ==== Sys2Proof/Proofs/Reset.lean ====
section
/-!
The state after reset (spec/70_reset_and_hazards.md R270): its values, and the invariants that hold of it.
-/
namespace Sys2Proof.Machine

/-- Settles O60: `resetEvent` and `State.reset` write these values. -/
theorem resetValues : Obligations.ResetValues :=
  ⟨fun _ _ _ => ⟨rfl, rfl, rfl, rfl, rfl, rfl, rfl, rfl, rfl⟩, rfl, rfl, rfl, rfl, rfl, rfl, rfl, rfl⟩

/-- Settles O59: at reset the trace, the responses and the record of filter operations are empty. -/
theorem invariantsHoldAtReset : Obligations.InvariantsHoldAtReset := by
  have hfed : State.reset.fed = [] := rfl
  have htrace : State.reset.trace = [] := rfl
  have hresponses : State.reset.responses = [] := rfl
  refine ⟨?_, ?_, ?_, ?_, ?_, ?_⟩
  · rintro (_ | _ | _) <;> rfl
  · exact ⟨rfl, by simp [hfed], by simp [hfed]⟩
  · exact fun h => absurd rfl h
  · exact ⟨fun _ => rfl, fun h => absurd h (by decide), fun _ _ => rfl, fun h => absurd h (by decide)⟩
  · exact ⟨by simp [hresponses], by simp [diagnostics, htrace, diagnosticsOf]⟩
  · exact ⟨by simp [RequestsStamped, htrace], by simp [HoldsLastStamp, htrace]⟩

end Sys2Proof.Machine
end

