-- ==== Sys2Proof/Proofs/RecordInvariants.lean ====
section
/-!
The invariants of spec/10_state.md that every part of a command keeps, so that `StepClosed.step` carries them through
every step: what the filters have received (R160), the decimation schedule (R131) and the time stamps (R24).
-/
namespace Sys2Proof.Machine

/-! ### The slope step's delta -/

theorem slopeDelta_of_fire {s : State} (h : counterAfter s.cnt = 0#8) :
    slopeDelta s = [.addDouble (sub32 (Config.F.readOutputDouble s.filtSlow) s.ref)] := if_pos h

theorem slopeDelta_of_no_fire {s : State} (h : counterAfter s.cnt ≠ 0#8) : slopeDelta s = [] := if_neg h

/-! ### The record of each filter -/

/-- An operation reaches the filter it names and no other (R155). -/
theorem filt_operate (k k' : FilterSel) (op : FilterOp) (s : State) :
    filt k (operate k' op s) = if k' = k then Config.F.apply op (filt k s) else filt k s := by
  cases k <;> simp [filt]

/-- `operate` applies what it records. -/
theorem RecordInvariant.operate {s : State} (h : RecordInvariant s) (k : FilterSel) (op : FilterOp) :
    RecordInvariant (operate k op s) := by
  intro k'
  rw [filt_operate, operate_fed, opsOf_append, opsOf_singleton, h k']
  split <;> rfl

/-- A connected tick's slope step records the delta it feeds, and records nothing otherwise (R130). -/
theorem RecordInvariant.slopeStep {s : State} (h : RecordInvariant s) : RecordInvariant (slopeStep s) := by
  intro k
  cases k with
  | fast => simpa [filt] using h .fast
  | slow => simpa [filt] using h .slow
  | slope =>
    have hs : s.filtSlope = _ := h .slope
    by_cases hf : counterAfter s.cnt = 0#8
    · simp [filt, slopeDelta_of_fire hf, hf, ← hs]
    · simp [filt, slopeDelta_of_no_fire hf, hf, ← hs]

theorem recordInvariant_stepClosed : StepClosed RecordInvariant where
  commands _ _ h := h
  acquiring _ _ h := h
  respond _ _ _ _ h := h
  plain _ _ _ h := h
  address _ h := h
  setAddr _ _ h := h
  raw _ h := h
  clock _ h := h
  request _ h := h
  lost _ h := h
  seed _ _ _ _ h := ((h.operate _ _).operate _ _).operate _ _
  feed _ _ _ _ _ _ h := ((h.operate _ _).operate _ _).slopeStep
  coefficients _ _ _ h := h.operate _ _

/-- Settles O53: filters change by `operate` alone, which records what it applies. -/
theorem recordInvariantKept : Obligations.RecordInvariantKept :=
  fun _ _ => recordInvariant_stepClosed.step

/-! ### What the filters are fed -/

theorem inputsOf_append (a b : List FilterOp) : inputsOf (a ++ b) = inputsOf a ++ inputsOf b := by
  induction a with
  | nil => rfl
  | cons op a ih => cases op <;> simp [inputsOf, ih]

/-- A longer trace allows a filter no less. -/
theorem FastFed.mono {s t : State} (h : s.trace ⊆ t.trace) {op : FilterOp} (hf : FastFed s op) : FastFed t op := by
  cases op with
  | init seed =>
    obtain ⟨a, raw, hm, e⟩ := hf
    exact ⟨a, raw, h hm, e⟩
  | add v =>
    obtain ⟨a, raw, hm, e⟩ := hf
    exact ⟨a, raw, h hm, e⟩
  | addDouble _ => exact hf
  | setCoefficients _ => trivial

/-- The invariant is kept when what is fed next meets its three clauses by itself. -/
theorem FeedInvariant.append {s t : State} (h : FeedInvariant s) (htr : s.trace ⊆ t.trace)
    (ops : List (FilterSel × FilterOp)) (hfed : t.fed = s.fed ++ ops)
    (hsame : inputsOf (opsOf .fast ops) = inputsOf (opsOf .slow ops))
    (hfast : ∀ op ∈ opsOf .fast ops, FastFed t op) (hslope : ∀ op ∈ opsOf .slope ops, SlopeFed op) :
    FeedInvariant t where
  same := by rw [hfed, opsOf_append, opsOf_append, inputsOf_append, inputsOf_append, h.same, hsame]
  fast := by
    rw [hfed, opsOf_append]
    exact List.forall_mem_append.2 ⟨hfast, fun op hop => (h.fast op hop).mono htr⟩
  slope := by
    rw [hfed, opsOf_append]
    exact List.forall_mem_append.2 ⟨hslope, h.slope⟩

/-- Where nothing is fed, the transactions made do not matter. -/
theorem FeedInvariant.of_fed_eq {s t : State} (h : FeedInvariant s) (htr : s.trace ⊆ t.trace) (hfed : t.fed = s.fed) :
    FeedInvariant t :=
  h.append htr [] (by simp [hfed]) rfl (by simp) (by simp)

theorem feedInvariant_stepClosed : StepClosed FeedInvariant where
  commands _ _ h := h.of_fed_eq (by simp) rfl
  acquiring _ _ h := h.of_fed_eq (by simp) rfl
  respond _ _ _ _ h := h.of_fed_eq (by simp) rfl
  plain _ _ _ h := h.of_fed_eq (by simp) rfl
  address _ h := h.of_fed_eq (by simp) rfl
  setAddr _ _ h := h.of_fed_eq (by simp) rfl
  raw _ h := h.of_fed_eq (by simp) rfl
  clock _ h := h.of_fed_eq (by simp) rfl
  request _ h := h.of_fed_eq (by simp) rfl
  lost _ h := h.of_fed_eq (by simp) rfl
  seed s a raw hm h := by
    refine h.append (by simp) _ (connect_fed _ s) (by simp) ?_ (by simp [SlopeFed])
    have hseed : FastFed (connect (rescaleSat raw) s) (.init (rescaleSat raw)) := ⟨a, raw, hm, rfl⟩
    simpa using hseed
  feed s a raw hm hr _ h := by
    have hadd : FastFed (slopeStep (feedFilters (rescaleSat raw) s)) (.add (rescaleSat raw)) :=
      ⟨a, raw, by simpa using hm, hr, rfl⟩
    refine h.append (by simp) _ (by rw [slopeStep_fed, feedFilters_fed, List.append_assoc]) (by simp) ?_ ?_
    · simpa using hadd
    · simp only [opsOf_append, slopeDelta]
      split <;> simp [SlopeFed]
  coefficients s k p h := by
    refine h.append (by simp) [(k, .setCoefficients p)] rfl ?_ ?_ ?_ <;> cases k <;>
      simp [inputsOf, FastFed, SlopeFed]

/-- Settles O54: seeds and samples come from readings in the trace, and the slope step feeds deltas. -/
theorem feedInvariantKept : Obligations.FeedInvariantKept :=
  fun _ _ => feedInvariant_stepClosed.step

/-! ### The decimation schedule -/

/-- The counter after `k` connected ticks (R131). -/
def scheduledCnt (k : Nat) : Nat := if k = 0 then 31 else 30 - (k - 1) % 30

/-- One more tick on the schedule: the counter reaches 0 exactly when the number of deltas grows (R130, R131). -/
theorem counterAfter_scheduled {c : BitVec 8} {k : Nat} (hc : c.toNat = scheduledCnt k) :
    (counterAfter c = 0#8 ∧ scheduledCnt (k + 1) = 30 ∧ k / 30 = (k - 1) / 30 + 1) ∨
    (counterAfter c ≠ 0#8 ∧ scheduledCnt (k + 1) = (counterAfter c).toNat ∧ k / 30 = (k - 1) / 30) := by
  unfold scheduledCnt at *
  have h0 : c ≠ 0 := by
    rintro rfl
    simp at hc
    split at hc <;> omega
  have hn : (counterAfter c).toNat = c.toNat - 1 := by
    rw [counterAfter_of_ne_zero h0]
    bv_omega
  have hz : counterAfter c = 0#8 ↔ c.toNat = 1 := by
    rw [counterAfter_eq_zero h0]
    bv_omega
  rw [ne_eq, hz, hn, hc]
  split <;> simp <;> omega

/-- A tick advances the schedule by one sample. -/
theorem ScheduleInvariant.tick {s : State} (h : ScheduleInvariant s) (v : Single) :
    ScheduleInvariant (slopeStep (feedFilters v s)) := by
  intro hi
  obtain ⟨hd, hc⟩ := h (by simpa [initCount] using hi)
  rcases counterAfter_scheduled hc with ⟨hz, hn, hq⟩ | ⟨hz, hn, hq⟩
  · have hδ := slopeDelta_of_fire (s := feedFilters v s) hz
    exact ⟨by simp [hδ, addsSinceInit, deltasSinceInit, hd, hq],
      by simpa [hδ, hz, addsSinceInit, scheduledCnt] using hn.symm⟩
  · have hδ := slopeDelta_of_no_fire (s := feedFilters v s) hz
    exact ⟨by simp [hδ, addsSinceInit, hd, hq], by simpa [hδ, hz, addsSinceInit, scheduledCnt] using hn.symm⟩

theorem scheduleInvariant_stepClosed : StepClosed ScheduleInvariant where
  commands _ _ h := h
  acquiring _ _ h := h
  respond _ _ _ _ h := h
  plain _ _ _ h := h
  address _ h := h
  setAddr _ _ h := h
  raw _ h := h
  clock _ h := h
  request _ h := h
  lost _ h := h
  seed _ _ _ _ _ _ := by simp [addsSinceInit, deltasSinceInit]
  feed _ _ _ _ _ _ h := h.tick _
  coefficients s k p h := by
    cases k <;> simpa [ScheduleInvariant, initCount, addsSinceInit, deltasSinceInit] using h

/-- Settles O55: an acquisition starts the schedule and a connected tick advances it by one. -/
theorem scheduleInvariantKept : Obligations.ScheduleInvariantKept :=
  fun _ _ => scheduleInvariant_stepClosed.step

/-! ### The time stamps -/

theorem RequestsStamped.append {a b : List Transaction} (ha : RequestsStamped a) (hb : RequestsStamped b) :
    RequestsStamped (a ++ b) := by
  intro pre post e
  rcases List.append_eq_append_iff.1 e with ⟨mid, rfl, e'⟩ | ⟨mid, rfl, e'⟩
  · exact hb mid post e'
  · cases mid with
    | nil => exact hb [] post e'.symm
    | cons x mid =>
      obtain ⟨rfl, rfl⟩ := List.cons_eq_cons.1 e'
      obtain ⟨t, rest, rfl⟩ := ha pre mid rfl
      exact ⟨t, rest ++ b, rfl⟩

/-- A list without a request has none to stamp. -/
theorem requestsStamped_of_not_mem {a : List Transaction} (h : .busRequestConversion ∉ a) : RequestsStamped a := by
  rintro pre post rfl
  simp at h

theorem requestsStamped_pair (t : Millis) : RequestsStamped [.busRequestConversion, .clockNow t] := by
  intro pre post e
  match pre, e with
  | [], e => exact ⟨t, [], by simpa using e.symm⟩
  | [_], e => simp at e
  | _ :: _ :: _, e => simp at e

/-- Transactions that are no requests leave the stamps as they are. -/
theorem StampInvariant.append {s t : State} (h : StampInvariant s) (new : List Transaction)
    (htr : t.trace = s.trace ++ new) (hreq : t.tReq = s.tReq) (hnew : .busRequestConversion ∉ new) :
    StampInvariant t where
  every := by
    rw [htr]
    exact h.every.append (requestsStamped_of_not_mem hnew)
  last := by
    rw [htr, hreq]
    intro hm
    obtain ⟨pre, post, e, hp⟩ := h.last ((List.mem_append.1 hm).resolve_right hnew)
    exact ⟨pre, post ++ new, by simp [e], by simp [hp, hnew]⟩

/-- Where no transaction is made, nothing else matters but T_REQ. -/
theorem StampInvariant.of_trace_eq {s t : State} (h : StampInvariant s) (htr : t.trace = s.trace)
    (hreq : t.tReq = s.tReq) : StampInvariant t :=
  h.append [] (by simp [htr]) hreq (by simp)

/-- A request and its stamp (R24). -/
theorem StampInvariant.requestAndStamp {s : State} (h : StampInvariant s) : StampInvariant (requestAndStamp s) where
  every := by
    rw [requestAndStamp_trace]
    exact h.every.append (requestsStamped_pair _)
  last := by
    rw [requestAndStamp_trace, requestAndStamp_tReq]
    exact fun _ => ⟨s.trace, [], rfl, by simp⟩

theorem stampInvariant_stepClosed : StepClosed StampInvariant where
  commands _ _ h := h.of_trace_eq rfl rfl
  acquiring _ _ h := h.of_trace_eq rfl rfl
  respond _ _ _ _ h := h.of_trace_eq rfl rfl
  plain _ t ht h := h.append [t] rfl rfl (by cases t <;> simp_all [IsPlainTransaction])
  address _ h := h.append _ (takeAddress_trace _) rfl (by simp)
  setAddr _ _ h := h.of_trace_eq rfl rfl
  raw _ h := h.append _ (takeRaw_trace _) rfl (by simp)
  clock _ h := h.append _ (takeClock_trace _) rfl (by simp)
  request _ h := h.requestAndStamp
  lost _ h := h.of_trace_eq rfl rfl
  seed _ _ _ _ h := h.of_trace_eq rfl rfl
  feed _ _ _ _ _ _ h := h.of_trace_eq (by simp) (by simp)
  coefficients _ _ _ h := h.of_trace_eq (by simp) (by simp)

/-- Settles O58: requests are made and stamped together, by `requestAndStamp`. -/
theorem stampInvariantKept : Obligations.StampInvariantKept :=
  fun _ _ => stampInvariant_stepClosed.step

end Sys2Proof.Machine
end

