-- ==== Sys2Proof/Proofs/CommandPaths.lean ====
section
/-!
The paths a command can take, one constructor each, and what every path leaves unchanged: CHAN, the host's words, the
address but for the bus's answers, and the spin-wait but for InitProc (spec/43_lifecycle.md R192, R194, R200, R201).
-/
namespace Sys2Proof.Machine

/-! ### One step -/

/-- Everything a step can do: wait for the host, poll once more, or execute or refuse the next word. -/
theorem step_cases {s t : State} (h : step s = .next t) :
    (s.acquiring = none ∧ s.commands = [] ∧ t = s) ∨
    (∃ c, s.acquiring = some c ∧ t = continueCommand Config.rawSentinel c { s with acquiring := none }) ∨
    (∃ w rest, s.acquiring = none ∧ s.commands = w :: rest ∧
      ((∃ i, decode w = .ok i ∧ exec i { s with commands := rest } = .next t) ∨
        t = respond .illegal 0 { s with commands := rest })) := by
  rcases Option.eq_none_or_eq_some s.acquiring with ha | ⟨c, ha⟩
  · cases hc : s.commands with
    | nil =>
      simp only [step, fetch_idle ha hc] at h
      exact .inl ⟨ha, rfl, by simpa using h.symm⟩
    | cons w rest =>
      simp only [step, fetch_word ha hc] at h
      refine .inr (.inr ⟨w, rest, ha, rfl, ?_⟩)
      split at h
      · exact .inl ⟨_, ‹_›, h⟩
      · exact .inr (by simpa using h.symm)
  · simp only [step, fetch_polling ha] at h
    exact .inr (.inl ⟨c, ha, by simpa using h.symm⟩)

/-! ### The parts of a command -/

/-- What two states have in common when TSCORE has only waited between them: every field but T_REQ, the readings and
clock readings to come, and the trace, which has grown. -/
structure WaitedFrom (s t : State) : Prop where
  eq : t = { s with
    tReq := t.tReq, rawIn := t.rawIn, clockIn := t.clockIn, rawAsked := t.rawAsked, clockAsked := t.clockAsked
    trace := t.trace }
  trace : s.trace <+: t.trace

theorem WaitedFrom.trans {s t u : State} (h : WaitedFrom s t) (h' : WaitedFrom t u) : WaitedFrom s u :=
  ⟨by rw [h'.eq, h.eq], h.trace.trans h'.trace⟩

theorem PolledFrom.waitedFrom {s t : State} (h : PolledFrom s t) : WaitedFrom s t := by
  obtain ⟨new, e, -⟩ := h.trace
  exact ⟨by rw [h.eq], new, e.symm⟩

theorem record_waitedFrom (t : Transaction) (s : State) : WaitedFrom s (record t s) := ⟨rfl, [t], rfl⟩

theorem requestAndStamp_waitedFrom (s : State) : WaitedFrom s (requestAndStamp s) :=
  ⟨rfl, _, (requestAndStamp_trace s).symm⟩

theorem updateStale_waitedFrom (s : State) : WaitedFrom s (updateStale s) := by
  have hc := (takeClock_polledFrom s).waitedFrom
  rcases updateStale_cases s with ⟨-, e⟩ | ⟨-, e⟩ <;> rw [e]
  · exact hc
  · exact (hc.trans (requestAndStamp_waitedFrom _)).trans (record_waitedFrom _ _)

/-! Waiting leaves every register but T_REQ, and every filter, alone. -/

section
variable {s t : State} (h : WaitedFrom s t)
include h
theorem WaitedFrom.lstate : t.lstate = s.lstate := by rw [h.eq]
theorem WaitedFrom.addr : t.addr = s.addr := by rw [h.eq]
theorem WaitedFrom.chan : t.chan = s.chan := by rw [h.eq]
theorem WaitedFrom.cnt : t.cnt = s.cnt := by rw [h.eq]
theorem WaitedFrom.ref : t.ref = s.ref := by rw [h.eq]
theorem WaitedFrom.filtFast : t.filtFast = s.filtFast := by rw [h.eq]
theorem WaitedFrom.filtSlow : t.filtSlow = s.filtSlow := by rw [h.eq]
theorem WaitedFrom.filtSlope : t.filtSlope = s.filtSlope := by rw [h.eq]
theorem WaitedFrom.commands : t.commands = s.commands := by rw [h.eq]
theorem WaitedFrom.addrIn : t.addrIn = s.addrIn := by rw [h.eq]
theorem WaitedFrom.fed : t.fed = s.fed := by rw [h.eq]
theorem WaitedFrom.acquiring : t.acquiring = s.acquiring := by rw [h.eq]
end

/-- What follows the polls of InitProc, from the state `u` they leave, for either caller (R192, R194, R202). -/
inductive Completes (c : Caller) (u : State) : State → Prop
  | polling : Completes c u { u with acquiring := some c }
  | timedOut : Completes c u (respondOk 0 { u with lstate := .disconnected })
  | initialised : c = .init → Completes c u (respondOk 0 (initFinish u))
  | lostAgain : c = .update → Completes c u (updateLost (takeRaw (initFinish u)))
  | reconnected (raw : Raw) : c = .update →
      Completes c u (updateFeed raw (diagEmit .reconnect (takeRaw (initFinish u))))

theorem updateAfterInit_initFinish (w : Raw) (u : State) : Completes .update u (updateAfterInit w (initFinish u)) := by
  have hl : (initFinish u).lstate = .connected := rfl
  by_cases hr : rawAnswer (initFinish u) = w
  · simpa only [updateAfterInit, hl, hr, if_true] using Completes.lostAgain rfl
  · simpa only [updateAfterInit, hl, hr, if_true, if_false] using Completes.reconnected _ rfl

theorem afterAcquisition_completes (w : Raw) (c : Caller) (p : Poll) :
    Completes c p.state (afterAcquisition w c (afterPoll p)) := by
  match p, c with
  | .valid u, .init => exact .initialised rfl
  | .valid u, .update => exact updateAfterInit_initFinish w u
  | .timeout u, .init => exact .timedOut
  | .timeout u, .update => exact .timedOut
  | .again u, _ => exact .polling

/-- The paths of UPDATE (R201), whatever its inputs are. -/
inductive UpdatePath (s : State) : State → Prop
  | refused : s.lstate = .uninitialized → UpdatePath s (refuseCommand .seq s)
  | lost (r : State) : WaitedFrom s r → UpdatePath s (updateLost r)
  | fed (r : State) (raw : Raw) : s.lstate = .connected → WaitedFrom s r → UpdatePath s (updateFeed raw r)
  | reconnecting (r u t : State) : s.lstate = .disconnected → WaitedFrom s r → WaitedFrom (initBegin r) u →
      Completes .update u t → UpdatePath s t

theorem initCommand_path (w : Raw) (s : State) :
    ∃ u, WaitedFrom (initBegin s) u ∧ Completes .init u (initCommand w s) :=
  ⟨_, (pollLoop_polledFrom w _ _).waitedFrom, afterAcquisition_completes w .init _⟩

theorem updateWithReading_path (w raw : Raw) {s r : State} (hw : WaitedFrom s r) (hu : s.lstate ≠ .uninitialized) :
    UpdatePath s (updateWithReading w raw r) := by
  have hl : r.lstate = s.lstate := hw.lstate
  unfold updateWithReading
  split
  · exact .lost r hw
  · split
    · rename_i hd
      exact .reconnecting _ _ _ (hl ▸ hd) (hw.trans (record_waitedFrom _ _)) (pollLoop_polledFrom w _ _).waitedFrom
        (afterAcquisition_completes w .update _)
    · rename_i hd
      refine .fed r raw ?_ hw
      rw [hl] at hd
      cases e : s.lstate with
      | uninitialized => exact absurd e hu
      | disconnected => exact absurd e hd
      | connected => rfl

theorem updateCommand_path (w : Raw) (s : State) : UpdatePath s (updateCommand w s) := by
  unfold updateCommand
  split
  · exact .refused ‹_›
  · exact updateWithReading_path w _ ((updateStale_waitedFrom s).trans (takeRaw_polledFrom _).waitedFrom) ‹_›

end Sys2Proof.Machine
end

