-- ==== Sys2Proof/Proofs/Frames.lean ====
section
/-!
What commands and steps leave unchanged, read off their paths (spec/10_state.md R20 to R29, R191).
-/
namespace Sys2Proof.Machine

/-! ### CHAN, the host's words and ADDR -/

/-- What every command and every part of one leaves: CHAN, the host's words, and ADDR but for an address the bus has
answered (R22, R23). -/
structure Follows (s t : State) : Prop where
  chan : t.chan = s.chan
  commands : t.commands = s.commands
  address : ∃ new, t.trace = s.trace ++ new ∧ (t.addr = s.addr ∨ .busGetAddress 0 (some t.addr) ∈ new)

theorem Follows.trans {s t u : State} (h : Follows s t) (h' : Follows t u) : Follows s u where
  chan := h'.chan.trans h.chan
  commands := h'.commands.trans h.commands
  address := by
    obtain ⟨new, e, ha⟩ := h.address
    obtain ⟨new', e', ha'⟩ := h'.address
    refine ⟨new ++ new', by rw [e', e, List.append_assoc], ?_⟩
    rcases ha' with ha' | ha'
    · rw [ha']
      exact ha.imp id (List.mem_append_left _)
    · exact .inr (List.mem_append_right _ ha')

/-- Where ADDR is not written, the trace need only grow. -/
theorem Follows.of_addr_eq {s t : State} (hchan : t.chan = s.chan) (hcommands : t.commands = s.commands)
    (haddr : t.addr = s.addr) (htrace : s.trace <+: t.trace) : Follows s t := by
  obtain ⟨new, e⟩ := htrace
  exact ⟨hchan, hcommands, new, e.symm, .inl haddr⟩

theorem WaitedFrom.follows {s t : State} (h : WaitedFrom s t) : Follows s t :=
  .of_addr_eq h.chan h.commands h.addr h.trace

/-- InitProc stores the address the bus answers, if it answers one (R192 step 2). -/
theorem initBegin_follows (s : State) : Follows s (initBegin s) where
  chan := by rw [initBegin_eq]
  commands := by rw [initBegin_eq]
  address := by
    rw [initBegin_eq]
    refine ⟨_, rfl, ?_⟩
    cases h : addressAnswer s with
    | none => exact .inl (by simp [resolvedAddr, h])
    | some a => exact .inr (by simp [resolvedAddr, h, openingTransactions])

theorem initFinish_follows (s : State) : Follows s (initFinish s) := by
  rw [initFinish_eq]
  exact .of_addr_eq rfl rfl rfl (List.prefix_append _ _)

theorem respond_follows (st : Status) (d : BitVec 16) (s : State) : Follows s (respond st d s) :=
  .of_addr_eq rfl rfl rfl (List.prefix_refl _)

/-- A lost sensor is reported on the transition out of Connected only (R200 step 3). -/
theorem updateLost_eq (s : State) : updateLost s = { s with
    lstate := .disconnected, responses := s.responses ++ [responseWord .ok 0]
    trace := s.trace ++ if s.lstate = .connected then [.diag (diagWord .disconnect s.chan)] else [] } := by
  unfold updateLost
  split <;> apply State.ext <;> simp

theorem updateLost_follows (s : State) : Follows s (updateLost s) := by
  rw [updateLost_eq]
  exact .of_addr_eq rfl rfl rfl (List.prefix_append _ _)

theorem updateFeed_follows (raw : Raw) (s : State) : Follows s (updateFeed raw s) :=
  .of_addr_eq (by simp [updateFeed]) (by simp [updateFeed]) (by simp [updateFeed]) (by simp [updateFeed])

theorem Completes.follows {c : Caller} {u t : State} (h : Completes c u t) : Follows u t := by
  have hread : Follows u (takeRaw (initFinish u)) :=
    (initFinish_follows u).trans (takeRaw_polledFrom _).waitedFrom.follows
  cases h with
  | polling => exact .of_addr_eq rfl rfl rfl (List.prefix_refl _)
  | timedOut => exact .of_addr_eq rfl rfl rfl (List.prefix_refl _)
  | initialised => exact (initFinish_follows u).trans (respond_follows _ _ _)
  | lostAgain => exact hread.trans (updateLost_follows _)
  | reconnected => exact (hread.trans (record_waitedFrom _ _).follows).trans (updateFeed_follows _ _)

theorem UpdatePath.follows {s t : State} (h : UpdatePath s t) : Follows s t := by
  cases h with
  | refused => exact respond_follows _ _ _
  | lost r hw => exact hw.follows.trans (updateLost_follows r)
  | fed r raw _ hw => exact hw.follows.trans (updateFeed_follows raw r)
  | reconnecting r u t _ hw hu hc => exact ((hw.follows.trans (initBegin_follows r)).trans hu.follows).trans hc.follows

/-- The SET commands write a filter and answer (R176 to R178). -/
theorem operate_follows (k : FilterSel) (op : FilterOp) (s : State) : Follows s (operate k op s) :=
  .of_addr_eq (by simp) (by simp) (by simp) (by simp)

theorem exec_follows {i : Instr} {s t : State} (h : exec i s = .next t) : Follows s t := by
  cases i with
  | init =>
    cases h
    obtain ⟨u, hu, hc⟩ := initCommand_path Config.rawSentinel s
    exact ((initBegin_follows s).trans hu.follows).trans hc.follows
  | update =>
    cases h
    exact (updateCommand_path _ s).follows
  | setFastCoeff | setSlowCoeff | setSlopeCoeff =>
    cases h
    exact (operate_follows _ _ s).trans (respond_follows _ _ _)
  | _ =>
    cases h
    exact respond_follows _ _ s

/-- One more poll, and the rest of the command if it ends the spin-wait. -/
theorem continueCommand_follows (w : Raw) (c : Caller) (s : State) : Follows s (continueCommand w c s) :=
  (pollOnce_polledFrom w s).waitedFrom.follows.trans (afterAcquisition_completes w c _).follows

/-- Settles O45: a step follows the state the fetch leaves, which has the first word less unless a spin-wait is in
progress. -/
theorem channelNeverChanges : Obligations.ChannelNeverChanges := by
  intro s t h
  rcases step_cases h with ⟨ha, hc, rfl⟩ | ⟨c, ha, rfl⟩ | ⟨w, rest, ha, hc, ⟨i, -, he⟩ | rfl⟩
  · simp [ha, hc]
  · have hf := continueCommand_follows Config.rawSentinel c { s with acquiring := none }
    simp [ha, hf.chan, hf.commands]
  · have hf := exec_follows he
    simp [ha, hc, hf.chan, hf.commands]
  · simp [ha, hc]

/-- What follows a state with the ADDR and the trace of `s` has its address from `s` or from the bus. -/
theorem Follows.addr_cases {s r t : State} (h : Follows r t) (haddr : r.addr = s.addr) (htrace : r.trace = s.trace) :
    t.addr = s.addr ∨ ∃ new, t.trace = s.trace ++ new ∧ .busGetAddress 0 (some t.addr) ∈ new := by
  obtain ⟨new, e, hnew⟩ := h.address
  rw [htrace] at e
  rw [haddr] at hnew
  exact hnew.imp id fun hm => ⟨new, e, hm⟩

/-- Settles O48: a step follows the state the fetch leaves, which has the same ADDR and trace. -/
theorem addressComesFromTheBus : Obligations.AddressComesFromTheBus := by
  intro s t h
  rcases step_cases h with ⟨-, -, rfl⟩ | ⟨c, -, rfl⟩ | ⟨w, rest, -, -, ⟨i, -, he⟩ | rfl⟩
  · exact .inl rfl
  · exact (continueCommand_follows _ c _).addr_cases rfl rfl
  · exact (exec_follows he).addr_cases rfl rfl
  · exact .inl rfl

/-! ### The commands other than INIT and UPDATE -/

/-- Settles O47: a query answers, and a SET command operates on one filter and answers. -/
theorem otherCommandsLeaveTheConnection : Obligations.OtherCommandsLeaveTheConnection := by
  intro i s hi hu
  cases i with
  | init => exact absurd rfl hi
  | update => exact absurd rfl hu
  | setFastCoeff | setSlowCoeff | setSlopeCoeff => exact ⟨_, rfl, by simp⟩
  | _ => exact ⟨_, rfl, by simp⟩

/-! ### UPDATE -/

/-- Settles O36: `updateStale_cases` decides the comparison, and the listed readings are the clock's answers. -/
theorem staleRequestsAreReissued : Obligations.StaleRequestsAreReissued := by
  refine ⟨fun s t cs hc ht => ?_, fun s t t' cs hc ht => ?_⟩
  · rcases updateStale_cases s with ⟨-, e⟩ | ⟨h, -⟩
    · apply State.ext <;> simp [e, hc, clockAnswer]
    · rw [clockAnswer_of_cons hc] at h
      exact absurd h (BitVec.not_lt.mpr ht)
  · rcases updateStale_cases s with ⟨h, -⟩ | ⟨-, e⟩
    · rw [clockAnswer_of_cons hc] at h
      exact absurd ht h
    · apply State.ext <;> simp [e, hc, clockAnswer]

/-- From Connected, one tick feeds the fast and slow filters one value and the slope filter at most the delta; what was
waited for before does not matter (R160, R203). -/
theorem updateFeed_filters {s r : State} (raw : Raw) (hw : WaitedFrom s r) :
    (updateFeed raw r).filtFast = Config.F.add s.filtFast (rescaleSat raw) ∧
    (updateFeed raw r).filtSlow = Config.F.add s.filtSlow (rescaleSat raw) ∧
    ((updateFeed raw r).filtSlope = s.filtSlope ∨
      (updateFeed raw r).filtSlope =
        Config.F.addDouble s.filtSlope (sub32 (Config.F.readOutputDouble (updateFeed raw r).filtSlow) s.ref)) := by
  by_cases hf : counterAfter r.cnt = 0#8 <;>
    simp [updateFeed, hf, hw.ref, hw.filtFast, hw.filtSlow, hw.filtSlope]

/-- Up to the end of its spin-wait a reconnecting UPDATE leaves the filters, the counter and the reference alone. -/
theorem beforePolls_filters {s r u : State} (hw : WaitedFrom s r) (hu : WaitedFrom (initBegin r) u) :
    u.filtFast = s.filtFast ∧ u.filtSlow = s.filtSlow ∧ u.filtSlope = s.filtSlope ∧ u.cnt = s.cnt ∧ u.ref = s.ref ∧
    u.fed = s.fed := by
  rw [hu.filtFast, hu.filtSlow, hu.filtSlope, hu.cnt, hu.ref, hu.fed]
  simp only [initBegin_eq]
  exact ⟨hw.filtFast, hw.filtSlow, hw.filtSlope, hw.cnt, hw.ref, hw.fed⟩

/-- Settles O42: on each path the filters are those of the state the waiting started from, but for what the path says
it feeds; after InitProc the counter is 31, so that the tick that follows feeds no delta. -/
theorem updateFrame : Obligations.UpdateFrame := by
  intro s t h
  have hp : UpdatePath s t := Host.Outcome.next.inj h ▸ updateCommand_path Config.rawSentinel s
  refine ⟨hp.follows.chan, hp.follows.commands, fun hd => ?_, ?_⟩
  · cases hp with
    | refused => exact ⟨rfl, rfl, rfl⟩
    | lost r hw => simp [updateLost_eq, hw.addr, hw.addrIn, hw.acquiring]
    | fed r raw _ hw => simp [updateFeed, hw.addr, hw.addrIn, hw.acquiring]
    | reconnecting _ _ _ hl => exact absurd hl hd
  · cases hp with
    | refused => exact .inl ⟨rfl, rfl, rfl, rfl, rfl, rfl⟩
    | lost r hw =>
      exact .inl (by simp [updateLost_eq, hw.cnt, hw.ref, hw.filtFast, hw.filtSlow, hw.filtSlope, hw.fed])
    | fed r raw hl hw =>
      have hl' : (updateFeed raw r).lstate = .connected := by simp [updateFeed, hw.lstate, hl]
      exact .inr (.inl ⟨hl, hl', _, updateFeed_filters raw hw⟩)
    | reconnecting r u _ hl hw hu hc =>
      obtain ⟨hfast, hslow, hslope, hcnt, href, hfed⟩ := beforePolls_filters hw hu
      cases hc with
      | polling => exact .inl ⟨hfast, hslow, hslope, hcnt, href, hfed⟩
      | timedOut => exact .inl ⟨hfast, hslow, hslope, hcnt, href, hfed⟩
      | initialised hi => exact nomatch hi
      | lostAgain =>
        refine .inr (.inr (.inl ⟨hl, ?_, ?_, rescaleSat (rawAnswer u), ?_⟩)) <;>
          simp [updateLost_eq, initFinish_eq, hfast, hslow, hslope]
      | reconnected raw =>
        refine .inr (.inr (.inr ⟨hl, ?_, ?_, rescaleSat (rawAnswer u), rescaleSat raw, ?_⟩)) <;>
          simp [updateFeed, initFinish_eq, hfast, hslow, hslope]

end Sys2Proof.Machine
end

