-- ==== Sys2Proof/Proofs/Acquisition.lean ====
section
/-!
Acquisition (spec/10_state.md R29, R190, R273): the filters are initialised together and before Connected, and once
initialised they stay so.
-/
namespace Sys2Proof.Machine

/-! ### A reconnect in progress -/

/-- What follows a poll leaves the command in progress, in the LSTATE the poll was made in, or leaves none. -/
theorem Completes.acquiring {c : Caller} {u t : State} (h : Completes c u t) :
    (t.acquiring = some c ∧ t.lstate = u.lstate) ∨ t.acquiring = u.acquiring := by
  cases h with
  | polling => exact .inl ⟨rfl, rfl⟩
  | timedOut => exact .inr rfl
  | initialised => exact .inr (by simp [initFinish_eq])
  | lostAgain => exact .inr (by simp [updateLost_eq, initFinish_eq])
  | reconnected => exact .inr (by simp [updateFeed, initFinish_eq])

/-- UPDATE polls while Disconnected only (R200 step 4). -/
theorem UpdatePath.acquiring {s t : State} (h : UpdatePath s t) :
    t.lstate = .disconnected ∨ t.acquiring = s.acquiring := by
  cases h with
  | refused => exact .inr rfl
  | lost => exact .inl (by simp [updateLost_eq])
  | fed r raw _ hw => exact .inr (by simp [updateFeed, hw.acquiring])
  | reconnecting r u _ hl hw hu hc =>
    have hlstate : u.lstate = .disconnected := by rw [hu.lstate, initBegin_eq, ← hl, ← hw.lstate]
    have hacquiring : u.acquiring = s.acquiring := by rw [hu.acquiring, initBegin_eq, ← hw.acquiring]
    exact hc.acquiring.imp (fun h => h.2.trans hlstate) fun h => h.trans hacquiring

/-- A command that starts leaves a reconnect in progress in Disconnected only. -/
theorem exec_acquiring {i : Instr} {s t : State} (h : exec i s = .next t) :
    t.acquiring = some .init ∨ t.lstate = .disconnected ∨ t.acquiring = s.acquiring := by
  cases i with
  | init =>
    cases h
    obtain ⟨u, hu, hc⟩ := initCommand_path Config.rawSentinel s
    have hacquiring : u.acquiring = s.acquiring := by rw [hu.acquiring, initBegin_eq]
    exact hc.acquiring.imp And.left fun h => .inr (h.trans hacquiring)
  | update =>
    cases h
    exact .inr (updateCommand_path _ s).acquiring
  | setFastCoeff | setSlowCoeff | setSlopeCoeff =>
    cases h
    exact .inr (.inr (by simp))
  | _ =>
    cases h
    exact .inr (.inr rfl)

/-- A reconnect in progress is Disconnected (R202). -/
theorem step_keeps_reconnecting {s t : State} (hs : s.acquiring = some .update → s.lstate = .disconnected)
    (h : step s = .next t) (ht : t.acquiring = some .update) : t.lstate = .disconnected := by
  rcases step_cases h with ⟨-, -, rfl⟩ | ⟨c, ha, rfl⟩ | ⟨w, rest, ha, -, ⟨i, -, he⟩ | rfl⟩
  · exact hs ht
  · have hw := (pollOnce_polledFrom Config.rawSentinel { s with acquiring := none }).waitedFrom
    rcases (afterAcquisition_completes Config.rawSentinel c _).acquiring with ⟨hc, hl'⟩ | hc
    · obtain rfl : c = .update := Option.some.inj (hc.symm.trans ht)
      exact hl'.trans (hw.lstate.trans (hs ha))
    · exact absurd (ht.symm.trans (hc.trans hw.acquiring)) (by simp)
  · rcases exec_acquiring he with hi | hd | hn
    · exact absurd (ht.symm.trans hi) (by simp)
    · exact hd
    · exact absurd (ht.symm.trans (hn.trans ha)) (by simp)
  · exact absurd (ht.symm.trans ha) (by simp)

/-! ### The filters are initialised together -/

/-- The clauses of `AcquisitionInvariant` about LSTATE and the filters: every part of a command keeps these. -/
structure InitialisedTogether (s : State) : Prop where
  together : ∀ k, initCount (opsOf k s.fed) = initCount (opsOf .fast s.fed)
  connected : s.lstate = .connected → initCount (opsOf .fast s.fed) ≠ 0
  uninitialized : s.lstate = .uninitialized → ∀ k, inputsOf (opsOf k s.fed) = []

/-- Where nothing is fed, LSTATE may at most become Disconnected. -/
theorem InitialisedTogether.of_fed_eq {s t : State} (h : InitialisedTogether s) (hfed : t.fed = s.fed)
    (hl : t.lstate = s.lstate ∨ t.lstate = .disconnected) : InitialisedTogether t where
  together := by rw [hfed]; exact h.together
  connected := by
    rw [hfed]
    rcases hl with hl | hl <;> rw [hl]
    · exact h.connected
    · exact nofun
  uninitialized := by
    rw [hfed]
    rcases hl with hl | hl <;> rw [hl]
    · exact h.uninitialized
    · exact nofun

/-- A coefficient write is neither an initialisation nor an input (R160). -/
theorem InitialisedTogether.setCoefficients {s : State} (h : InitialisedTogether s) (k : FilterSel) (p : Coeff) :
    InitialisedTogether (operate k (.setCoefficients p) s) := by
  have hcount (k') : initCount (opsOf k' (s.fed ++ [(k, .setCoefficients p)])) = initCount (opsOf k' s.fed) := by
    rw [opsOf_append, opsOf_singleton]
    split <;> rfl
  have hinputs (k') : inputsOf (opsOf k' (s.fed ++ [(k, .setCoefficients p)])) = inputsOf (opsOf k' s.fed) := by
    rw [opsOf_append, opsOf_singleton]
    split <;> rfl
  constructor <;> simp only [operate_fed, operate_lstate, hcount, hinputs]
  · exact h.together
  · exact h.connected
  · exact h.uninitialized

/-- A connected tick initialises no filter. -/
theorem initCount_tick (k : FilterSel) (v : Single) (s : State) :
    initCount (opsOf k (slopeStep (feedFilters v s)).fed) = initCount (opsOf k s.fed) := by
  rw [slopeStep_fed, feedFilters_fed]
  by_cases hf : counterAfter s.cnt = 0#8
  · have hδ := slopeDelta_of_fire (s := feedFilters v s) hf
    cases k <;> simp [hδ, initCount]
  · have hδ := slopeDelta_of_no_fire (s := feedFilters v s) hf
    cases k <;> simp [hδ, initCount]

/-- An acquisition initialises each filter once (R29 b). -/
theorem initCount_connect (k : FilterSel) (v : Single) (s : State) :
    initCount (opsOf k (connect v s).fed) = initCount (opsOf k s.fed) + 1 := by
  cases k <;> simp [initCount]

theorem initialisedTogether_stepClosed : StepClosed InitialisedTogether where
  commands _ _ h := h.of_fed_eq rfl (.inl rfl)
  acquiring _ _ h := h.of_fed_eq rfl (.inl rfl)
  respond _ _ _ _ h := h.of_fed_eq rfl (.inl rfl)
  plain _ _ _ h := h.of_fed_eq rfl (.inl rfl)
  address _ h := h.of_fed_eq rfl (.inl rfl)
  setAddr _ _ h := h.of_fed_eq rfl (.inl rfl)
  raw _ h := h.of_fed_eq rfl (.inl rfl)
  clock _ h := h.of_fed_eq rfl (.inl rfl)
  request _ h := h.of_fed_eq rfl (.inl rfl)
  lost _ h := h.of_fed_eq rfl (.inr rfl)
  seed s _ raw _ h := {
    together := fun k => by rw [initCount_connect, initCount_connect, h.together k]
    connected := fun _ => by rw [initCount_connect]; exact Nat.succ_ne_zero _
    uninitialized := nofun }
  feed s _ raw _ _ hl h := {
    together := fun k => by rw [initCount_tick, initCount_tick, h.together k]
    connected := fun _ => by rw [initCount_tick]; exact h.connected hl
    uninitialized := fun hu => by simp [hl] at hu }
  coefficients _ _ _ h := h.setCoefficients _ _

/-- Settles O56: `initialisedTogether_stepClosed` for the clauses about the filters, and the paths of a step for the
reconnect in progress. -/
theorem acquisitionInvariantKept : Obligations.AcquisitionInvariantKept := by
  intro s t h hst
  obtain ⟨htogether, hconnected, huninitialized⟩ :=
    initialisedTogether_stepClosed.step ⟨h.together, h.connected, h.uninitialized⟩ hst
  exact ⟨htogether, hconnected, huninitialized, step_keeps_reconnecting h.reconnecting hst⟩

/-! ### Runs -/

/-- A run that goes on begins with a step that goes on. -/
theorem run_succ_cases {n : Nat} {s t : State} (h : Host.Core.run core (n + 1) s = .next t) :
    ∃ u, step s = .next u ∧ Host.Core.run core n u = .next t := by
  cases e : core.step s with
  | next u => exact ⟨u, e, by rw [← run_succ n e, h]⟩
  | fault r => simp [Host.Core.run, e] at h
  | refused r => simp [Host.Core.run, e] at h

/-- What every step keeps, every run keeps. -/
theorem run_keeps {P : State → Prop} (hP : ∀ s t, P s → step s = .next t → P t) (n : Nat) {s t : State} (hs : P s)
    (h : Host.Core.run core n s = .next t) : P t := by
  induction n generalizing s with
  | zero =>
    cases h
    exact hs
  | succ n ih =>
    obtain ⟨u, hu, h⟩ := run_succ_cases h
    exact ih (hP s u hs hu) h

/-- A run goes on from where its beginning ends. -/
theorem run_add (k n : Nat) {s t : State} (h : Host.Core.run core k s = .next t) :
    Host.Core.run core (k + n) s = Host.Core.run core n t := by
  induction k generalizing s with
  | zero =>
    cases h
    rw [Nat.zero_add]
  | succ k ih =>
    obtain ⟨u, hu, h⟩ := run_succ_cases h
    rw [Nat.succ_add, run_succ _ hu]
    exact ih h

/-! ### Once Connected, always initialised -/

/-- Every filter has been initialised since reset. -/
def AllInitialised (s : State) : Prop := ∀ k, initCount (opsOf k s.fed) ≠ 0

theorem allInitialised_stepClosed : StepClosed AllInitialised where
  commands _ _ h := h
  acquiring _ _ h := h
  respond _ _ _ _ h := h
  plain _ _ _ h := h
  address _ h := h
  setAddr _ _ h := h
  raw _ h := h
  clock _ h := h
  request _ h := h
  lost _ h := h
  seed s _ _ _ _ k := by rw [initCount_connect]; exact Nat.succ_ne_zero _
  feed s _ _ _ _ _ h k := by rw [initCount_tick]; exact h k
  coefficients s k' p h k := by
    rw [operate_fed, opsOf_append, opsOf_singleton]
    split <;> exact h k

/-- IS_CONNECTED answers 1 in Connected only (R210). -/
theorem connected_of_isConnected_answers_one {s t : State} (ha : s.acquiring = none)
    (hw : s.commands.head? = some (encode .isConnected)) (h : step s = .next t)
    (hr : t.responses = s.responses ++ [responseWord .ok 1]) : s.lstate = .connected := by
  obtain ⟨rest, hc⟩ := List.head?_eq_some_iff.1 hw
  have hd : decode (encode .isConnected) = .ok .isConnected := by decide
  have hs : step s = .next (respondOk (connectedBit s) { s with commands := rest }) := by
    simp only [step, fetch_word ha hc, hd]
    rfl
  rw [hs, Host.Outcome.next.injEq] at h
  by_contra hl
  have hzero : responseWord .ok 0 = responseWord .ok 1 := by simpa [← h, connectedBit, hl] using hr
  exact absurd hzero (by decide)

/-- Settles O51: IS_CONNECTED answers 1 in Connected only, where the invariant has every filter initialised; each later
step keeps it so. -/
theorem acquiredOnceMeansInitialised : Obligations.AcquiredOnceMeansInitialised := by
  rintro s0 t n h0 ⟨k, s, u, hkn, hk, hst, ha, hw, hr⟩ hn
  have hs : AcquisitionInvariant s := run_keeps acquisitionInvariantKept k h0 hk
  have hi : AllInitialised s := fun k => by
    rw [hs.together k]
    exact hs.connected (connected_of_isConnected_answers_one ha hw hst hr)
  obtain ⟨m, rfl⟩ := Nat.exists_eq_add_of_le hkn.le
  rw [run_add k m hk] at hn
  exact run_keeps (fun _ _ => allInitialised_stepClosed.step) m hi hn

end Sys2Proof.Machine
end

