-- ==== Sys2Proof/Proofs/UnreadFields.lean ====
section
/-!
Noninterference (spec/10_state.md R23, R33, R254): a step reads neither CHAN nor the records of transactions, responses
and filter operations. Two states that differ in these fields alone are one state `s` put over two others
(`State.over`), and an operation is `Blind` when what it does and emits does not depend on which others these are.
-/
namespace Sys2Proof.Machine

/-! ### States that differ in the unread fields -/

/-- What a run has appended to the records; a diagnostic counts by its code, whatever its channel field. -/
structure Emitted where
  transactions : List (Transaction ⊕ DiagCode)
  responses : List RspWord
  fed : List (FilterSel × FilterOp)

/-- Nothing yet. -/
def Emitted.none : Emitted := ⟨[], [], []⟩

/-- A transaction as it is made with `chan` in CHAN (R86). -/
def withChan (chan : BitVec 8) : Transaction ⊕ DiagCode → Transaction
  | .inl t => t
  | .inr c => .diag (diagWord c chan)

/-- The state `s`, but for the unread fields: CHAN is that of `base`, and each record that of `base` with the run's
entries after it. -/
def State.over (base : State) (e : Emitted) (s : State) : State :=
  { s with
    chan := base.chan
    trace := base.trace ++ e.transactions.map (withChan base.chan)
    responses := base.responses ++ e.responses
    fed := base.fed ++ e.fed }

/-- What `f` does, and what it emits, is the same over every base. -/
def Blind (f : State → State) : Prop := ∀ e s, ∃ e' s', ∀ base : State, f (base.over e s) = base.over e' s'

/-- A value that is not read off the unread fields. -/
def Unaffected {α : Type} (v : State → α) : Prop := ∀ (base : State) e s, v (base.over e s) = v s

theorem Blind.comp {f g : State → State} (hg : Blind g) (hf : Blind f) : Blind (fun s => g (f s)) := by
  intro e s
  obtain ⟨e₁, s₁, h₁⟩ := hf e s
  obtain ⟨e₂, s₂, h₂⟩ := hg e₁ s₁
  exact ⟨e₂, s₂, fun base => by simp only [h₁, h₂]⟩

/-- A function is blind when it is so for each outcome of what it branches on. -/
theorem Blind.of_branches {α : Type} {f : State → State} {v : State → α} (hv : Unaffected v)
    (h : ∀ a, ∃ g, Blind g ∧ ∀ s, v s = a → f s = g s) : Blind f := by
  intro e s
  obtain ⟨g, hg, hfg⟩ := h (v s)
  obtain ⟨e', s', h'⟩ := hg e s
  exact ⟨e', s', fun base => by rw [hfg _ (hv base e s), h']⟩

/-- A test is a branching with two outcomes. -/
theorem Blind.of_test {f g g' : State → State} {p : State → Prop} (hp : Unaffected p) (hg : Blind g) (hg' : Blind g')
    (h : ∀ s, p s → f s = g s) (h' : ∀ s, ¬ p s → f s = g' s) : Blind f := by
  refine .of_branches hp fun a => ?_
  by_cases ha : a
  · exact ⟨g, hg, fun s e => h s (e ▸ ha)⟩
  · exact ⟨g', hg', fun s e => h' s (e ▸ ha)⟩

theorem Blind.ite {g g' : State → State} {p : State → Prop} [DecidablePred p] (hp : Unaffected p) (hg : Blind g)
    (hg' : Blind g') : Blind fun s => if p s then g s else g' s :=
  .of_test hp hg hg' (fun _ h => if_pos h) fun _ h => if_neg h

/-- A value that is taken and then used. -/
theorem Blind.bind {α : Type} {v : State → α} {f : α → State → State} (hv : Unaffected v) (hf : ∀ a, Blind (f a)) :
    Blind fun s => f (v s) s :=
  .of_branches hv fun a => ⟨f a, hf a, fun s e => by rw [e]⟩

/-! ### The operations -/

/-- An update of other fields that emits nothing. -/
theorem blind_of_silent {f : State → State} (h : ∀ (base : State) e s, f (base.over e s) = base.over e (f s)) :
    Blind f :=
  fun e s => ⟨e, f s, fun base => h base e s⟩

theorem record_over (base : State) (e : Emitted) (s : State) (x : Transaction ⊕ DiagCode) :
    record (withChan base.chan x) (base.over e s) =
      base.over { e with transactions := e.transactions ++ [x] } s := by
  simp [record, State.over]

theorem record_blind {t : State → Transaction} (ht : Unaffected t) : Blind fun s => record (t s) s :=
  .bind ht fun t e s => ⟨_, s, fun base => record_over base e s (.inl t)⟩

/-- A diagnostic carries CHAN, which is all that CHAN reaches (R86). -/
theorem diagEmit_blind (c : DiagCode) : Blind (diagEmit c) :=
  fun e s => ⟨_, s, fun base => record_over base e s (.inr c)⟩

theorem respond_blind (st : Status) (d : BitVec 16) : Blind (respond st d) :=
  fun e s => ⟨{ e with responses := e.responses ++ [responseWord st d] }, s, fun base => by
    simp [respond, State.over]⟩

theorem operate_blind (k : FilterSel) {op : State → FilterOp} (hop : Unaffected op) :
    Blind fun s => operate k (op s) s :=
  .bind hop fun op e s => ⟨{ e with fed := e.fed ++ [(k, op)] }, operate k op s, fun base => by
    cases k <;> simp [operate, setFilt, filt, State.over]⟩

theorem delay_blind (n : BitVec 16) : Blind (delay n) := record_blind fun _ _ _ => rfl

theorem setLstate_blind (l : LState) : Blind fun s => { s with lstate := l } := blind_of_silent fun _ _ _ => rfl

theorem setAcquiring_blind (c : Option Caller) : Blind fun s => { s with acquiring := c } :=
  blind_of_silent fun _ _ _ => rfl

theorem takeAddress_blind : Blind takeAddress :=
  (blind_of_silent (f := fun s => { s with addrIn := s.addrIn.tail, addrAsked := s.addrAsked + 1 })
    fun _ _ _ => rfl).comp (record_blind (t := fun s => .busGetAddress 0 (addressAnswer s)) fun _ _ _ => rfl)

theorem takeRaw_blind : Blind takeRaw :=
  (blind_of_silent (f := fun s => { s with rawIn := s.rawIn.tail, rawAsked := s.rawAsked + 1 })
    fun _ _ _ => rfl).comp (record_blind (t := fun s => .busReadRaw s.addr (rawAnswer s)) fun _ _ _ => rfl)

theorem takeClock_blind : Blind takeClock :=
  (blind_of_silent (f := fun s => { s with clockIn := s.clockIn.tail, clockAsked := s.clockAsked + 1 })
    fun _ _ _ => rfl).comp (record_blind (t := fun s => .clockNow (clockAnswer s)) fun _ _ _ => rfl)

theorem requestAndStamp_blind : Blind requestAndStamp :=
  (takeClock_blind.comp (blind_of_silent (f := fun s => { s with tReq := clockAnswer s }) fun _ _ _ => rfl)).comp
    (record_blind (t := fun _ => .busRequestConversion) fun _ _ _ => rfl)

/-! ### The slope step -/

/-- The counter reaching 0, the slope step is the fire: there is no capture, and the fire reloads the counter (R130). -/
theorem slopeStep_of_fire {s : State} (h : counterAfter s.cnt = 0#8) : slopeStep s = slopeFire s := by
  have hfire : slopeStep s = slopeFire { s with cnt := counterAfter s.cnt } := by
    rw [slopeStep, slopeCapture_of_fire h]
    exact if_pos h
  exact hfire

theorem slopeStep_of_no_fire {s : State} (h : counterAfter s.cnt ≠ 0#8) :
    slopeStep s = { slopeCapture s with cnt := counterAfter s.cnt } := if_neg h

theorem slopeFire_blind : Blind slopeFire := by
  have hfeed : Blind fun s =>
      operate .slope (.addDouble (sub32 (Config.F.readOutputDouble s.filtSlow) s.ref)) s :=
    operate_blind .slope (op := fun s => .addDouble (sub32 (Config.F.readOutputDouble s.filtSlow) s.ref))
      fun _ _ _ => rfl
  have hset : Blind fun s => { s with ref := Config.F.readOutputDouble s.filtSlow, cnt := Params.decim } :=
    blind_of_silent fun _ _ _ => rfl
  exact hset.comp hfeed

theorem slopeCapture_blind : Blind slopeCapture :=
  .ite (p := fun s => s.cnt = Params.cntFirst) (fun _ _ _ => rfl)
    (blind_of_silent (f := fun s => { s with ref := Config.F.readOutputDouble s.filtSlow }) fun _ _ _ => rfl)
    (blind_of_silent (f := id) fun _ _ _ => rfl)

theorem slopeStep_blind : Blind slopeStep := by
  have hset (c : BitVec 8) : Blind fun s => { slopeCapture s with cnt := c } :=
    (blind_of_silent (f := fun s => { s with cnt := c }) fun _ _ _ => rfl).comp slopeCapture_blind
  exact .of_test (p := fun s => counterAfter s.cnt = 0#8) (fun _ _ _ => rfl) slopeFire_blind
    (.bind (v := fun s => counterAfter s.cnt) (fun _ _ _ => rfl) hset) (fun _ => slopeStep_of_fire)
    fun _ => slopeStep_of_no_fire

/-! ### InitProc -/

theorem resolveAddress_blind : Blind resolveAddress := by
  refine .of_branches (v := addressAnswer) (fun _ _ _ => rfl) fun answer => ?_
  cases answer with
  | none => exact ⟨_, (diagEmit_blind .addrFail).comp takeAddress_blind, fun s h => by simp [resolveAddress, h]⟩
  | some a =>
    exact ⟨_, (blind_of_silent (f := fun s => { s with addr := a }) fun _ _ _ => rfl).comp takeAddress_blind,
      fun s h => by simp [resolveAddress, h]⟩

theorem initBegin_blind : Blind initBegin :=
  (delay_blind _).comp (requestAndStamp_blind.comp
    ((record_blind (t := fun s => .busSetResolution s.addr Params.resBits) fun _ _ _ => rfl).comp
      (resolveAddress_blind.comp (record_blind (t := fun _ => .busReset) fun _ _ _ => rfl))))

theorem connect_blind (seed : Single) : Blind (connect seed) := by
  have hop (k : FilterSel) (v : Single) : Blind (operate k (.init v)) := operate_blind k fun _ _ _ => rfl
  have hset : Blind fun s => { s with
      ref := Config.F.readOutputDouble s.filtSlow, cnt := Params.cntFirst, lstate := .connected } :=
    blind_of_silent fun _ _ _ => rfl
  exact hset.comp ((hop .slope 0).comp ((hop .slow seed).comp (hop .fast seed)))

theorem initFinish_blind : Blind initFinish := by
  have hseed : Blind fun s => connect (rescaleSat (rawAnswer s)) (takeRaw s) :=
    .bind (v := rawAnswer) (fun _ _ _ => rfl) fun raw => (connect_blind (rescaleSat raw)).comp takeRaw_blind
  exact hseed.comp ((delay_blind _).comp requestAndStamp_blind)

/-! ### UPDATE -/

theorem updateStale_blind : Blind updateStale :=
  .ite (p := fun s => Params.tStale < elapsed (clockAnswer s) s.tReq) (fun _ _ _ => rfl)
    ((delay_blind _).comp (requestAndStamp_blind.comp takeClock_blind)) takeClock_blind

theorem updateLost_blind : Blind updateLost := by
  have hlost : Blind fun s => respondOk 0 { s with lstate := .disconnected } :=
    (respond_blind _ _).comp (setLstate_blind _)
  exact .of_test (p := fun s => s.lstate = .connected) (fun _ _ _ => rfl) (hlost.comp (diagEmit_blind .disconnect))
    hlost (fun s h => by simp [updateLost, h]) fun s h => by simp [updateLost, h]

theorem updateFeed_blind (raw : Raw) : Blind (updateFeed raw) := by
  have hop (k : FilterSel) : Blind (operate k (.add (rescaleSat raw))) := operate_blind k fun _ _ _ => rfl
  exact (respond_blind _ _).comp (requestAndStamp_blind.comp (slopeStep_blind.comp ((hop .slow).comp (hop .fast))))

theorem updateAfterInit_blind (w : Raw) : Blind (updateAfterInit w) := by
  have hread : Blind fun s => if rawAnswer s = w then updateLost (takeRaw s)
      else updateFeed (rawAnswer s) (diagEmit .reconnect (takeRaw s)) :=
    .ite (p := fun s => rawAnswer s = w) (fun _ _ _ => rfl) (updateLost_blind.comp takeRaw_blind)
      (.bind (v := rawAnswer) (fun _ _ _ => rfl) fun raw =>
        (updateFeed_blind raw).comp ((diagEmit_blind _).comp takeRaw_blind))
  exact .ite (p := fun s => s.lstate = .connected) (fun _ _ _ => rfl) hread (respond_blind _ _)

/-- What a command does when its InitProc has returned. -/
theorem afterDone_blind (w : Raw) (c : Caller) : Blind fun s => afterAcquisition w c (.done s) := by
  cases c with
  | init => exact respond_blind _ _
  | update => exact updateAfterInit_blind w

/-- One poll of the loop (R192 step 6). -/
theorem pollLoop_succ (w : Raw) (n : Nat) (s : State) : pollLoop w (n + 1) s =
    if rawAnswer s ≠ w then .valid (takeRaw s)
    else if 2000#32 < elapsed (clockAnswer s) s.tReq then .timeout (takeClock (takeRaw s))
    else pollLoop w n (takeClock (takeRaw s)) := by
  rcases pollOnce_cases w s with ⟨h, e⟩ | ⟨h, h', e⟩ | ⟨h, h', e⟩
  · simp only [pollLoop, e, h, ne_eq, not_false_eq_true, if_true]
  · simp only [pollLoop, e, h, h', ne_eq, not_true_eq_false, if_true, if_false]
  · simp only [pollLoop, e, h, h', ne_eq, not_true_eq_false, if_false]

/-- The spin-wait and what follows it, poll by poll. -/
theorem afterPolls_blind (w : Raw) (c : Caller) (n : Nat) :
    Blind fun s => afterAcquisition w c (afterPoll (pollLoop w n s)) := by
  induction n with
  | zero => exact setAcquiring_blind (some c)
  | succ n ih =>
    have hpoll : Blind fun s => takeClock (takeRaw s) := takeClock_blind.comp takeRaw_blind
    have hvalid : Blind fun s => afterAcquisition w c (afterPoll (.valid (takeRaw s))) :=
      (afterDone_blind w c).comp (initFinish_blind.comp takeRaw_blind)
    have htimeout : Blind fun s => afterAcquisition w c (afterPoll (.timeout (takeClock (takeRaw s)))) :=
      (afterDone_blind w c).comp ((setLstate_blind .disconnected).comp hpoll)
    simp only [pollLoop_succ, apply_ite afterPoll, apply_ite (afterAcquisition w c)]
    exact .ite (fun _ _ _ => rfl) hvalid (.ite (fun _ _ _ => rfl) htimeout (ih.comp hpoll))

/-- A single poll is a loop of one. -/
theorem pollLoop_one (w : Raw) (s : State) : pollLoop w 1 s = pollOnce w s := by
  unfold pollLoop
  split <;> simp_all [pollLoop]

theorem continueCommand_blind (w : Raw) (c : Caller) : Blind (continueCommand w c) := by
  have h := afterPolls_blind w c 1
  simp only [pollLoop_one] at h
  exact h

theorem initProc_blind (w : Raw) (c : Caller) : Blind fun s => afterAcquisition w c (initProc w s) :=
  .bind (v := fun s => s.rawIn.length) (fun _ _ _ => rfl) fun n => (afterPolls_blind w c n).comp initBegin_blind

theorem updateWithReading_blind (w raw : Raw) : Blind (updateWithReading w raw) := by
  have hreconnect : Blind fun s => afterAcquisition w .update (initProc w (delay Params.tSettle s)) :=
    (initProc_blind w .update).comp (delay_blind _)
  exact .ite (p := fun _ => raw = w) (fun _ _ _ => rfl) updateLost_blind
    (.ite (p := fun s => s.lstate = .disconnected) (fun _ _ _ => rfl) hreconnect (updateFeed_blind raw))

theorem updateCommand_blind (w : Raw) : Blind (updateCommand w) := by
  have hread : Blind fun s => updateWithReading w (rawAnswer s) (takeRaw s) :=
    .bind (v := rawAnswer) (fun _ _ _ => rfl) fun raw => (updateWithReading_blind w raw).comp takeRaw_blind
  exact .ite (p := fun s => s.lstate = .uninitialized) (fun _ _ _ => rfl) (respond_blind _ _)
    (hread.comp updateStale_blind)

/-! ### Commands and steps -/

theorem exec_blind (i : Instr) : ∃ f, Blind f ∧ ∀ s, exec i s = .next (f s) := by
  have hanswer {d : State → BitVec 16} (hd : Unaffected d) : Blind fun s => respondOk (d s) s :=
    .bind hd fun d => respond_blind .ok d
  have hset (k : FilterSel) (p : Coeff) : Blind fun s => respondOk 0 (operate k (.setCoefficients p) s) :=
    (respond_blind _ _).comp (operate_blind k fun _ _ _ => rfl)
  cases i with
  | init => exact ⟨_, initProc_blind _ .init, fun _ => rfl⟩
  | update => exact ⟨_, updateCommand_blind _, fun _ => rfl⟩
  | setFastCoeff p | setSlowCoeff p | setSlopeCoeff p => exact ⟨_, hset _ p, fun _ => rfl⟩
  | _ => exact ⟨_, hanswer fun _ _ _ => rfl, fun _ => rfl⟩

/-- From one state over any base a step does and emits the same. -/
theorem step_over (s : State) : ∃ e t, ∀ base : State, step (base.over .none s) = .next (base.over e t) := by
  rcases Option.eq_none_or_eq_some s.acquiring with ha | ⟨c, ha⟩
  · cases hc : s.commands with
    | nil => exact ⟨.none, s, fun base => by simp only [step, fetch_idle (s := base.over .none s) ha hc]⟩
    | cons w rest =>
      have hf (base : State) : fetch (base.over .none s) = .word w (base.over .none { s with commands := rest }) :=
        fetch_word ha hc
      cases hd : decode w with
      | error e =>
        obtain ⟨e', t, h⟩ := respond_blind .illegal 0 .none { s with commands := rest }
        exact ⟨e', t, fun base => by simp only [step, hf, hd, refuseCommand_eq, h]⟩
      | ok i =>
        obtain ⟨f, hb, he⟩ := exec_blind i
        obtain ⟨e', t, h⟩ := hb .none { s with commands := rest }
        exact ⟨e', t, fun base => by simp only [step, hf, hd, he, h]⟩
  · have hf (base : State) : fetch (base.over .none s) = .polling c (base.over .none { s with acquiring := none }) :=
      fetch_polling ha
    obtain ⟨e', t, h⟩ := continueCommand_blind Config.rawSentinel c .none { s with acquiring := none }
    exact ⟨e', t, fun base => by simp only [step, hf, h]⟩

/-- A state over itself. -/
theorem over_self (s : State) : s.over .none s = s := by simp [State.over, Emitted.none]

/-- Settles O50: `s` and the state with the other records are `s` over each of the two. -/
theorem recordsAreNeverReadBack : Obligations.RecordsAreNeverReadBack := by
  intro s t tr rs fs h
  obtain ⟨e, t', ht⟩ := step_over s
  have hs := ht s
  rw [over_self, h, Host.Outcome.next.injEq] at hs
  have hu := ht { s with trace := tr, responses := rs, fed := fs }
  subst hs
  refine ⟨e.transactions.map (withChan s.chan), e.responses, e.fed, rfl, rfl, rfl, ?_⟩
  simpa [State.over, Emitted.none] using hu

/-- The mask of `hideChan` keeps the code and clears the channel field (R86). -/
theorem diagWord_and_mask (d : DiagCode) (chan : BitVec 8) : diagWord d chan &&& 0x300 = diagWord d 0 := by
  have hmask : (0x300 : DiagWord) = 0b11#2 ++ 0#8 := by decide
  calc diagWord d chan &&& 0x300
    _ = (d.code &&& 0b11#2) ++ (chan &&& 0#8) := by rw [hmask]; exact BitVec.and_append
    _ = diagWord d 0 := by rw [BitVec.and_zero]; cases d <;> rfl

/-- The channel field hidden, a transaction does not show the channel it was made with. -/
theorem hideChan_withChan (c c' : BitVec 8) (x : Transaction ⊕ DiagCode) :
    hideChan (withChan c x) = hideChan (withChan c' x) := by
  cases x with
  | inl t => rfl
  | inr d => simp only [withChan, hideChan, diagWord_and_mask]

/-- Settles O49: the two states are `s` over each of the two, and what is emitted over them differs in the channel field
of the diagnostics alone. -/
theorem channelReachesDiagnosticsOnly : Obligations.ChannelReachesDiagnosticsOnly := by
  intro s t u hsu h
  obtain ⟨e, t', ht⟩ := step_over s
  have hs := ht s
  rw [over_self, h, Host.Outcome.next.injEq] at hs
  have hover : u.over .none s = u := by
    rw [← hsu.state]
    simp [State.over, Emitted.none]
  have hu := ht u
  rw [hover] at hu
  subst hs
  have hemitted : (e.transactions.map (withChan u.chan)).map hideChan =
      (e.transactions.map (withChan s.chan)).map hideChan := by
    simp only [List.map_map]
    exact List.map_congr_left fun x _ => hideChan_withChan _ _ x
  have hresponses : u.responses = s.responses := by rw [← hsu.state]
  have hfed : u.fed = s.fed := by rw [← hsu.state]
  refine ⟨_, hu, ?_, ?_⟩
  · simp only [State.over, hresponses, hfed]
  · simp only [State.over, List.map_append, hsu.trace, hemitted]

end Sys2Proof.Machine
end

