-- ==== Sys2Proof/Proofs/BusWords.lean ====
section
/-!
The words on the BUS port (spec/30_encoding.md R88): what each transaction requests, which fields of a reply it uses,
and both words field by field.
-/
namespace Sys2Proof.Machine

/-- The operations of the five BUS transactions are numbered 0 to 4 (R88). -/
theorem busRequest_bop_le {t : Transaction} {q : BusRequest} (h : busRequest t = some q) : q.bop.toNat ≤ 4 := by
  cases t with
  | clockNow | delay | diag => simp [busRequest] at h
  | _ =>
    obtain rfl := Option.some.inj h
    simp

theorem replyAgrees_busGetAddress (r : BusReply) (index : BitVec 8) (answer : Option Addr) :
    replyAgrees r (.busGetAddress index answer) = true ↔ answer = replyAddress r := by
  rw [replyAgrees, decide_eq_true_iff, eq_comm]

theorem replyAgrees_busReadRaw (r : BusReply) (addr : Addr) (answer : Raw) :
    replyAgrees r (.busReadRaw addr answer) = true ↔ answer = r.raw := by
  rw [replyAgrees, decide_eq_true_iff, eq_comm]

/-- A word of three fields, highest first, read field by field. -/
theorem append_three_fields {k m n : Nat} (a : BitVec k) (b : BitVec m) (c : BitVec n) :
    (a ++ b ++ c).extractLsb' (m + n) k = a ∧ (a ++ b ++ c).extractLsb' n m = b ∧
      (a ++ b ++ c).extractLsb' 0 n = c := by
  refine ⟨?_, ?_, append_low _ c⟩
  · rw [BitVec.extractLsb'_append_eq_of_le (Nat.le_add_left n m), Nat.add_sub_cancel]
    exact append_high a b
  · rw [BitVec.extractLsb'_append_eq_of_le (Nat.le_refl n), Nat.sub_self]
    exact append_low a b

/-- Settles O6: the table is `busRequest` and `replyAgrees` case by case, and both words are three fields joined. -/
theorem busWordsFollowTable : Obligations.BusWordsFollowTable :=
  ⟨rfl, fun _ _ => rfl, fun _ _ => rfl, rfl, fun _ _ => rfl, replyAgrees_busGetAddress, replyAgrees_busReadRaw,
    fun _ _ _ => ⟨rfl, rfl, rfl⟩, fun _ _ => busRequest_bop_le,
    fun q => append_three_fields q.bop q.arg8 q.addr, fun r => append_three_fields r.ok r.raddr r.raw⟩

end Sys2Proof.Machine
end

