-- ==== Sys2Proof/Proofs/Durations.lean ====
section
/-!
Time along a list of transactions (spec/20_memory.md R54, R55; spec/70_reset_and_hazards.md R290, R291, R293): what the
delays say about the time from the first transaction to the last, and from one clock reading to another.
-/
namespace Sys2Proof.Machine

/-- Each transaction adds the least time it takes, which is 0 unless it is a delay. -/
theorem delayTotal_cons (t : Transaction) (tr : List Transaction) :
    delayTotal (t :: tr) = minDuration t + delayTotal tr := by
  cases t <;> simp [delayTotal, minDuration]

/-- If each transaction's end compares with its beginning plus its least duration by `R`, the last time so compares with
the first plus the sum of the delays. `R` is `≤` for `DelayAtLeast` and `=` for `DelayExact`. -/
theorem Timeline.total {R : Nat → Nat → Prop} (hrefl : ∀ a, R a a) (htrans : ∀ {a b c}, R a b → R b c → R a c)
    (hadd : ∀ {a b} n, R a b → R (a + n) (b + n)) (tr : List Transaction) {first last : Nat} {times : List Nat}
    (hlast : (first :: times).getLast? = some last)
    (h : Timeline (fun t a b => R (a + minDuration t) b) tr (first :: times)) : R (first + delayTotal tr) last := by
  induction tr generalizing first times with
  | nil =>
    obtain ⟨now, e⟩ := h
    obtain rfl : first = last := by simpa [(List.cons_eq_cons.1 e).2] using hlast
    exact hrefl first
  | cons t tr ih =>
    cases times with
    | nil => exact h.elim
    | cons b times =>
      obtain ⟨ht, hrest⟩ := h
      have hlast' : (b :: times).getLast? = some last := by rwa [List.getLast?_cons_cons] at hlast
      rw [delayTotal_cons, ← Nat.add_assoc]
      exact htrans (hadd _ ht) (ih hlast' hrest)

/-- Settles O31: `Timeline.total` with `≤` and with `=`. -/
theorem delaysBoundTheDuration : Obligations.DelaysBoundTheDuration := by
  intro tr first times last hlast
  refine ⟨fun h => ?_, fun h => ?_⟩
  · exact Timeline.total Nat.le_refl Nat.le_trans (fun n => Nat.add_le_add_right (k := n)) tr hlast h
  · exact Timeline.total (R := fun a b => b = a) (fun _ => rfl) (fun hab hbc => hbc.trans hab)
      (fun n hab => congrArg (· + n) hab) tr hlast h

/-- What a rule says of the transaction at a place, and of the times before and after it. -/
theorem Timeline.rule_at {rule : Transaction → Nat → Nat → Prop} {tr : List Transaction} {times : List Nat}
    (h : Timeline rule tr times) {i : Nat} {t : Transaction} (hi : tr[i]? = some t) :
    rule t (times.getD i 0) (times.getD (i + 1) 0) := by
  match tr, times, h, i with
  | _ :: _, _ :: _ :: _, h, 0 =>
    obtain rfl := Option.some.inj hi
    exact h.1
  | _ :: _, _ :: _ :: _, h, i + 1 => exact Timeline.rule_at h.2 hi

/-- Where no transaction goes back in time, no two times are out of order. -/
theorem Timeline.mono {rule : Transaction → Nat → Nat → Prop} (hrule : ∀ {t a b}, rule t a b → a ≤ b)
    {tr : List Transaction} {times : List Nat} (h : Timeline rule tr times) {i j : Nat} (hij : i ≤ j)
    (hj : j ≤ tr.length) : times.getD i 0 ≤ times.getD j 0 := by
  induction j, hij using Nat.le_induction with
  | base => exact Nat.le_refl _
  | succ j _ ih => exact (ih (Nat.le_of_succ_le hj)).trans (hrule (h.rule_at (List.getElem?_eq_getElem hj)))

/-- What lies between two transactions of a list, by its places. -/
theorem getElem?_between {α : Type} (pre mid post : List α) (x y : α) {k : Nat} (hk : pre.length < k)
    (hk' : k < pre.length + 1 + mid.length) : ∃ z ∈ mid, (pre ++ x :: mid ++ y :: post)[k]? = some z := by
  obtain ⟨m, rfl⟩ := Nat.exists_eq_add_of_lt hk
  have hm : m < mid.length := by omega
  refine ⟨mid[m], List.getElem_mem hm, ?_⟩
  rw [List.getElem?_append_left (by simp; omega), List.getElem?_append_right (by omega)]
  simp [Nat.add_assoc, hm]

/-- Settles O32: the first reading tells a time `n` ms or more before the delay's end, the second one a time no sooner
than that end; less than 2^32 ms lie between them, so that `Elapsed` is the difference of the two times. -/
theorem delaySeparatesReadings : Obligations.DelaySeparatesReadings := by
  intro pre a n mid b post times hclock hdelay hmid
  set tr := pre ++ .clockNow a :: .delay n :: mid ++ .clockNow b :: post with htr
  set i := pre.length
  set j := pre.length + 1 + (mid.length + 1)
  have hi : tr[i]? = some (.clockNow a) := by simp [htr, i]
  have hd : tr[i + 1]? = some (.delay n) := by simp [htr, i]
  have hj : tr[j]? = some (.clockNow b) := by
    rw [htr, List.getElem?_append_right (by simp [j]; omega)]
    simp [j, Nat.add_assoc, Nat.add_comm]
  have hbetween : ∀ k, i < k → k < j → tr[k]? ≠ some .busRequestConversion := by
    intro k hik hkj
    obtain ⟨z, hz, e⟩ :=
      getElem?_between pre (.delay n :: mid) post (.clockNow a) (.clockNow b) hik (by simpa using hkj)
    rw [htr, e]
    rintro ⟨⟩
    exact hmid (by simpa using hz)
  obtain ⟨htellsA, hab⟩ := hclock.tells.rule_at hi
  obtain ⟨htellsB, -⟩ := hclock.tells.rule_at hj
  have hwait : times.getD (i + 1) 0 + n.toNat ≤ times.getD (i + 2) 0 := hdelay.rule_at hd
  have hmono : times.getD (i + 2) 0 ≤ times.getD j 0 :=
    hclock.tells.mono And.right (by omega) (List.getElem?_eq_some_iff.1 hj).1.le
  have hnear := hclock.near i j a b (by omega) hi hj hbetween
  rw [htellsA a rfl, htellsB b rfl, elapsedIsTrueTime _ _ (by omega) hnear]
  omega

end Sys2Proof.Machine
end

