-- ==== Sys2Proof/Proofs/CommandPort.lean ====
section
/-!
The command port (spec/20_memory.md R50; spec/30_encoding.md R84): which command a step runs, and that a command is
answered by one response word once its spin-wait, if it has one, is over.
-/
namespace Sys2Proof.Machine

/-! ### Which command a step runs -/

theorem step_of_word {s : State} {w : CmdWord} {rest : List CmdWord} {i : Instr} (ha : s.acquiring = none)
    (hc : s.commands = w :: rest) (hd : decode w = .ok i) : step s = exec i { s with commands := rest } := by
  simp only [step, fetch_word ha hc, hd]

theorem step_of_no_word {s : State} (ha : s.acquiring = none) (hc : s.commands = []) : step s = .next s := by
  simp only [step, fetch_idle ha hc]

theorem step_of_acquiring {s : State} {c : Caller} (ha : s.acquiring = some c) :
    step s = .next (continueCommand Config.rawSentinel c { s with acquiring := none }) := by
  simp only [step, fetch_polling ha]

/-- Settles O19: the three answers of the fetch. -/
theorem stepRunsTheDecodedCommand : Obligations.StepRunsTheDecodedCommand :=
  ⟨fun _ _ _ _ => step_of_word, fun _ => step_of_no_word, fun _ _ => step_of_acquiring⟩

/-! ### The answer to a command -/

/-- A command, or the rest of one, that leaves the spin-wait as it was and gives one response word. -/
structure Answers (s t : State) : Prop where
  acquiring : t.acquiring = s.acquiring
  responses : ∃ r, t.responses = s.responses ++ [r]

/-- A command, or the rest of one, that is answered or stays in progress with no response (log entry 11). -/
def AnswersOrPolls (s t : State) : Prop := Answers s t ∨ (t.acquiring ≠ none ∧ t.responses = s.responses)

/-- Of the state it starts from, the answer and the spin-wait alone matter. -/
theorem Answers.of_eq {s r t : State} (h : Answers r t) (ha : r.acquiring = s.acquiring)
    (hr : r.responses = s.responses) : Answers s t :=
  ⟨h.acquiring.trans ha, hr ▸ h.responses⟩

theorem AnswersOrPolls.of_eq {s r t : State} (h : AnswersOrPolls r t) (ha : r.acquiring = s.acquiring)
    (hr : r.responses = s.responses) : AnswersOrPolls s t :=
  h.imp (fun h => h.of_eq ha hr) fun ⟨hp, e⟩ => ⟨hp, e.trans hr⟩

theorem WaitedFrom.responses {s t : State} (h : WaitedFrom s t) : t.responses = s.responses := by rw [h.eq]

theorem respond_answers (st : Status) (d : BitVec 16) (s : State) : Answers s (respond st d s) := ⟨rfl, _, rfl⟩

theorem updateLost_answers (s : State) : Answers s (updateLost s) := by
  rw [updateLost_eq]
  exact ⟨rfl, _, rfl⟩

theorem updateFeed_answers (raw : Raw) (s : State) : Answers s (updateFeed raw s) :=
  (respond_answers .ok 0 _).of_eq (by simp) (by simp)

theorem Completes.answersOrPolls {c : Caller} {u t : State} (h : Completes c u t) : AnswersOrPolls u t := by
  cases h with
  | polling => exact .inr ⟨by simp, rfl⟩
  | timedOut => exact .inl ⟨rfl, _, rfl⟩
  | initialised => exact .inl ((respond_answers .ok 0 _).of_eq (by rw [initFinish_eq]) (by rw [initFinish_eq]))
  | lostAgain => exact .inl ((updateLost_answers _).of_eq (by simp [initFinish_eq]) (by simp [initFinish_eq]))
  | reconnected raw => exact .inl ((updateFeed_answers raw _).of_eq (by simp [initFinish_eq]) (by simp [initFinish_eq]))

theorem acquisition_answersOrPolls {c : Caller} {s u t : State} (hu : WaitedFrom (initBegin s) u)
    (h : Completes c u t) : AnswersOrPolls s t :=
  h.answersOrPolls.of_eq (by rw [hu.acquiring, initBegin_eq]) (by rw [hu.responses, initBegin_eq])

theorem UpdatePath.answersOrPolls {s t : State} (h : UpdatePath s t) : AnswersOrPolls s t := by
  cases h with
  | refused => exact .inl (respond_answers _ _ _)
  | lost r hw => exact .inl ((updateLost_answers r).of_eq hw.acquiring hw.responses)
  | fed r raw _ hw => exact .inl ((updateFeed_answers raw r).of_eq hw.acquiring hw.responses)
  | reconnecting r u _ _ hw hu hc => exact (acquisition_answersOrPolls hu hc).of_eq hw.acquiring hw.responses

theorem exec_answersOrPolls {i : Instr} {s t : State} (h : exec i s = .next t) : AnswersOrPolls s t := by
  cases i with
  | init =>
    cases h
    obtain ⟨u, hu, hc⟩ := initCommand_path Config.rawSentinel s
    exact acquisition_answersOrPolls hu hc
  | update =>
    cases h
    exact (updateCommand_path _ s).answersOrPolls
  | setFastCoeff | setSlowCoeff | setSlopeCoeff =>
    cases h
    exact .inl ((respond_answers _ _ _).of_eq rfl rfl)
  | _ =>
    cases h
    exact .inl (respond_answers _ _ s)

theorem continueCommand_answersOrPolls (w : Raw) (c : Caller) (s : State) :
    AnswersOrPolls s (continueCommand w c s) := by
  have hw := (pollOnce_polledFrom w s).waitedFrom
  exact (afterAcquisition_completes w c _).answersOrPolls.of_eq hw.acquiring hw.responses

/-! ### Every step -/

/-- No state stops a step (R245). -/
theorem step_next (s : State) : ∃ t, step s = .next t := by
  obtain ⟨e, t, h⟩ := step_over s
  exact ⟨_, by simpa only [over_self] using h s⟩

theorem Follows.trace {s t : State} (h : Follows s t) : ∃ new, t.trace = s.trace ++ new := by
  obtain ⟨new, e, -⟩ := h.address
  exact ⟨new, e⟩

/-- With no spin-wait in progress before it, a command ends with one response word or leaves one in progress. -/
theorem AnswersOrPolls.of_idle {s t : State} (h : AnswersOrPolls s t) (ha : s.acquiring = none) :
    (∃ r, t.responses = s.responses ++ [r] ∧ t.acquiring = none) ∨
      (t.responses = s.responses ∧ t.acquiring ≠ none) := by
  rcases h with ⟨hacq, r, hr⟩ | ⟨hp, hr⟩
  · exact .inl ⟨r, hr, hacq.trans ha⟩
  · exact .inr ⟨hr, hp⟩

/-- A step idles, or makes a part of a command from the state the fetch leaves, in which no spin-wait is in progress. -/
theorem step_answersOrPolls {s t : State} (h : step s = .next t) :
    (t = s ∧ s.acquiring = none ∧ s.commands = []) ∨
    ∃ r, r.acquiring = none ∧ r.responses = s.responses ∧ r.trace = s.trace ∧ AnswersOrPolls r t ∧ Follows r t := by
  rcases step_cases h with ⟨ha, hc, rfl⟩ | ⟨c, -, rfl⟩ | ⟨w, rest, ha, -, ⟨i, -, he⟩ | rfl⟩
  · exact .inl ⟨rfl, ha, hc⟩
  · exact .inr ⟨{ s with acquiring := none }, rfl, rfl, rfl, continueCommand_answersOrPolls _ _ _,
      continueCommand_follows _ _ _⟩
  · exact .inr ⟨{ s with commands := rest }, ha, rfl, rfl, exec_answersOrPolls he, exec_follows he⟩
  · exact .inr ⟨{ s with commands := rest }, ha, rfl, rfl, .inl (respond_answers _ _ _), respond_follows _ _ _⟩

/-- Settles O21: there is always a next state, and `step_answersOrPolls` says what it can be. -/
theorem everyStepGoesOn : Obligations.EveryStepGoesOn := by
  intro s
  obtain ⟨t, ht⟩ := step_next s
  refine ⟨t, ht, ?_⟩
  rcases step_answersOrPolls ht with hidle | ⟨r, ha, hr, htr, h, hf⟩
  · exact ⟨.inr (.inr hidle), [], by simp [hidle.1]⟩
  · rw [← hr, ← htr]
    exact ⟨(h.of_idle ha).imp_right .inl, hf.trace⟩

end Sys2Proof.Machine
end

