-- ==== Sys2Proof/Proofs/SpinWait.lean ====
section
/-!
The end of a spin-wait (spec/43_lifecycle.md R192 step 6; spec/70_reset_and_hazards.md R283, R293): a poll that sees the
clock more than 2000 ms past the request ends it, whatever the bus answers.
-/
namespace Sys2Proof.Machine

/-! ### The clock readings to come -/

theorem clockAt_zero (s : State) : clockAt s 0 = clockAnswer s := by
  unfold clockAt clockAnswer
  cases s.clockIn <;> rfl

/-- After a clock reading the one that was to come next but `n` comes next but `n - 1`. -/
theorem clockAt_takeClock (s : State) (n : Nat) : clockAt (takeClock s) n = clockAt s (n + 1) := by
  unfold clockAt
  rw [takeClock_clockIn, takeClock_clockAsked, Nat.add_right_comm, Nat.add_assoc]
  cases s.clockIn <;> rfl

/-! ### One poll -/

theorem updateAfterInit_answers (w : Raw) (s : State) : Answers s (updateAfterInit w s) := by
  unfold updateAfterInit
  dsimp only
  split
  · split
    · exact (updateLost_answers _).of_eq rfl rfl
    · exact (updateFeed_answers _ _).of_eq rfl rfl
  · exact respond_answers _ _ s

/-- A command whose InitProc has returned is over. -/
theorem afterAcquisition_done_answers (w : Raw) (c : Caller) (s : State) :
    Answers s (afterAcquisition w c (.done s)) := by
  cases c with
  | init => exact respond_answers _ _ s
  | update => exact updateAfterInit_answers w s

/-- A step polls once: that ends the spin-wait, or the clock was seen no more than 2000 ms past the request and the
spin-wait goes on with the next reading. -/
theorem step_polls {s : State} {c : Caller} (ha : s.acquiring = some c) :
    ∃ t, step s = .next t ∧ (t.acquiring = none ∨
      (¬ 2000#32 < elapsed (clockAt s 0) s.tReq ∧ t.acquiring = some c ∧ t.tReq = s.tReq ∧
        ∀ n, clockAt t n = clockAt s (n + 1))) := by
  refine ⟨_, step_of_acquiring ha, ?_⟩
  set u : State := { s with acquiring := none }
  have hdone (v : State) (hv : v.acquiring = none) :
      (afterAcquisition Config.rawSentinel c (.done v)).acquiring = none :=
    (afterAcquisition_done_answers _ c v).acquiring.trans hv
  rcases pollOnce_cases Config.rawSentinel u with ⟨-, e⟩ | ⟨-, -, e⟩ | ⟨-, h, e⟩ <;> rw [continueCommand, e]
  · exact .inl (hdone (initFinish (takeRaw u)) (by rw [initFinish_eq]; rfl))
  · exact .inl (hdone _ rfl)
  · rw [← clockAt_zero] at h
    exact .inr ⟨h, rfl, rfl, clockAt_takeClock (takeRaw u)⟩

/-! ### The spin-wait -/

/-- A spin-wait is over at the latest with the poll whose clock reading is more than 2000 ms past the request. -/
theorem spinWait_ends (n : Nat) {s : State} {c : Caller} (ha : s.acquiring = some c)
    (hn : 2000#32 < elapsed (clockAt s n) s.tReq) :
    ∃ k t, Host.Core.run core k s = .next t ∧ t.acquiring = none := by
  induction n generalizing s with
  | zero =>
    obtain ⟨t, hstep, hover | ⟨hearly, -⟩⟩ := step_polls ha
    · exact ⟨1, t, run_succ 0 hstep, hover⟩
    · exact absurd hn hearly
  | succ n ih =>
    obtain ⟨t, hstep, hover | ⟨-, hacquiring, hreq, hclock⟩⟩ := step_polls ha
    · exact ⟨1, t, run_succ 0 hstep, hover⟩
    · obtain ⟨k, u, hrun, hu⟩ := ih hacquiring (by rwa [hclock, hreq])
      exact ⟨k + 1, u, (run_succ k hstep).trans hrun, hu⟩

/-- The first clock reading to come that is more than 2000 ms past the request shows it (R15, R54). -/
theorem PollsTellTime.exists_late {s : State} {t0 : Nat} {times : Nat → Nat} (h : PollsTellTime s t0 times)
    (hadv : ClockAdvances times) : ∃ n, 2000#32 < elapsed (clockAt s n) s.tReq := by
  have hlate := hadv (t0 + 2000)
  refine ⟨Nat.find hlate, ?_⟩
  have hspec := Nat.find_spec hlate
  have hnear := h.near (Nat.find hlate) fun m hm => Nat.not_lt.1 (Nat.find_min hlate hm)
  rw [BitVec.lt_def, h.tells, h.stamp, elapsedIsTrueTime _ _ (by omega) hnear]
  show 2000 < _
  omega

/-- Settles O26: the clock passes 2000 ms after the request, and the poll that sees this is the last. -/
theorem spinWaitEndsIfTheClockAdvances : Obligations.SpinWaitEndsIfTheClockAdvances := by
  intro s c t0 times ha hpolls hadv
  obtain ⟨n, hn⟩ := hpolls.exists_late hadv
  exact spinWait_ends n ha hn

end Sys2Proof.Machine
end

