-- ==== Sys2Proof/Proofs/InitCommand.lean ====
section
/-!
INIT (spec/43_lifecycle.md R192 to R194): what each of its paths leaves unchanged, which diagnostics it emits and how
long its delays are.
-/
namespace Sys2Proof.Machine

/-- Up to the end of its polls INIT waits and emits nothing; then it is over, or stays in progress. -/
theorem initCommand_polls (w : Raw) (s : State) :
    ∃ u, PolledFrom (initBegin s) u ∧ Completes .init u (initCommand w s) :=
  ⟨_, pollLoop_polledFrom w _ _, afterAcquisition_completes w .init _⟩

/-! ### The transactions of InitProc -/

theorem diagnosticsOf_openingTransactions (s : State) (answer : Option Addr) (t0 : Millis) :
    diagnosticsOf (openingTransactions s answer t0) = if answer = none then [diagWord .addrFail s.chan] else [] := by
  cases answer <;> rfl

theorem delayTotal_openingTransactions (s : State) (answer : Option Addr) (t0 : Millis) :
    delayTotal (openingTransactions s answer t0) = 750 := by
  cases answer <;> rfl

/-- INIT emits no diagnostic after its polls. -/
theorem Completes.silent_of_init {u t : State} (h : Completes .init u t) :
    ∃ new, t.trace = u.trace ++ new ∧ diagnosticsOf new = [] := by
  cases h with
  | polling => exact ⟨[], by simp, rfl⟩
  | timedOut => exact ⟨[], by simp, rfl⟩
  | initialised => exact ⟨_, by rw [respondOk_eq, respond_trace, initFinish_eq], rfl⟩
  | lostAgain hc => exact nomatch hc
  | reconnected _ hc => exact nomatch hc

/-- The one diagnostic of INIT is ADDR_FAIL, of step 2 (R240, R241). -/
theorem initCommand_diagnostics (w : Raw) (s : State) : ∃ new, (initCommand w s).trace = s.trace ++ new ∧
    ∀ d ∈ diagnosticsOf new, d = diagWord .addrFail s.chan := by
  obtain ⟨u, hu, hc⟩ := initCommand_polls w s
  obtain ⟨polls, hpolls, hsilent⟩ := hu.trace
  obtain ⟨rest, hrest, hnone⟩ := hc.silent_of_init
  refine ⟨openingTransactions s (addressAnswer s) (clockAnswer s) ++ polls ++ rest, ?_, ?_⟩
  · rw [hrest, hpolls, initBegin_eq, List.append_assoc, List.append_assoc, List.append_assoc]
  · rw [diagnosticsOf_append, diagnosticsOf_append, diagnosticsOf_polls hsilent, hnone,
      diagnosticsOf_openingTransactions]
    split <;> simp

/-! ### What INIT leaves unchanged -/

/-- Settles O28: steps 1 to 5 and the polls leave LSTATE, the filters, CNT and REF as they were; what follows is one of
the three ends of `Completes`. -/
theorem initFrame : Obligations.InitFrame := by
  intro s t h
  obtain rfl : initCommand Config.rawSentinel s = t := Host.Outcome.next.inj h
  have hf := exec_follows h
  refine ⟨hf.chan, hf.commands, ?_, initCommand_diagnostics _ s⟩
  obtain ⟨u, hu, hc⟩ := initCommand_polls Config.rawSentinel s
  have hw := hu.waitedFrom
  obtain ⟨hfast, hslow, hslope, hcnt, href, hfed⟩ := beforePolls_filters ⟨rfl, List.prefix_refl _⟩ hw
  have hlstate : u.lstate = s.lstate := by rw [hw.lstate, initBegin_eq]
  have hacquiring : u.acquiring = s.acquiring := by rw [hw.acquiring, initBegin_eq]
  have hresponses : u.responses = s.responses := by rw [hw.responses, initBegin_eq]
  generalize initCommand Config.rawSentinel s = t at hc
  cases hc with
  | polling => exact .inl ⟨rfl, hlstate, hresponses, hfast, hslow, hslope, hcnt, href, hfed⟩
  | timedOut =>
    exact .inr (.inl ⟨hacquiring, rfl, by simp [hresponses], hfast, hslow, hslope, hcnt, href, hfed⟩)
  | initialised =>
    refine .inr (.inr ⟨?_, ?_, ?_, ?_, ?_, rescaleSat (rawAnswer u), ?_⟩) <;>
      simp [initFinish_eq, hacquiring, hresponses, hfast, hslow, hslope, hfed]
  | lostAgain hi => exact nomatch hi
  | reconnected _ hi => exact nomatch hi

/-! ### Its delays -/

/-- Settles O29: one delay of 750 ms after each of the two requests, and none in the poll between them. -/
theorem initDelaysFifteenHundred : Obligations.InitDelaysFifteenHundred := by
  intro s answer addrs raw1 raw2 rs t0 t1 cs _ hraw hvalid _
  set u := takeRaw (initBegin s)
  have hnext : exec .init s = .next (respondOk 0 (initFinish u)) := by
    show Host.Outcome.next (initCommand Config.rawSentinel s) = _
    rw [initCommand, initProc_of_valid hraw hvalid, afterAcquisition]
  refine ⟨_, openingTransactions s (addressAnswer s) (clockAnswer s) ++
    ([.busReadRaw (initBegin s).addr (rawAnswer (initBegin s))] ++
      [.busRequestConversion, .clockNow (clockAnswer u), .delay 750, .busReadRaw u.addr (rawAnswer u)]), hnext, ?_, ?_⟩
  · rw [respondOk_eq, respond_trace, initFinish_eq, takeRaw_trace, ← List.append_assoc, ← List.append_assoc,
      congrArg State.trace (initBegin_eq s)]
  · rw [delayTotal_append, delayTotal_openingTransactions]
    rfl

end Sys2Proof.Machine
end

