-- ==== Sys2Proof/Proofs/Encoding.lean ====
section
/-!
Command words (spec/30_encoding.md R80 to R83): the decoder and the encoder invert each other, and both follow the match
and mask table, whose legal words are told by their two fields.
-/
namespace Sys2Proof

/-! ### The decoder and the encoder -/

theorem noOperand_eq_ok {i j : Instr} {w : CmdWord} : noOperand i w = .ok j ↔ immField w = 0 ∧ i = j := by
  unfold noOperand
  split <;> simp_all

theorem decode_encode (i : Instr) : decode (encode i) = .ok i := by
  cases i with
  | setFastCoeff | setSlowCoeff | setSlopeCoeff => simp [decode, encode]
  | _ => decide

/-- A word is put together from the values of its two fields. -/
theorem commandWord_of_fields {w : CmdWord} {n : Nat} {imm16 : BitVec 16} (hop : (opField w).toNat = n)
    (himm : immField w = imm16) : commandWord (BitVec.ofNat 4 n) imm16 = w := by
  rw [← hop, ← himm, BitVec.ofNat_toNat, BitVec.setWidth_eq, commandWord_fields]

theorem encode_of_decode {w : CmdWord} {i : Instr} (h : decode w = .ok i) : encode i = w := by
  unfold decode at h
  split at h
  case h_1 hop | h_2 hop | h_3 hop | h_4 hop | h_5 hop | h_6 hop | h_7 hop | h_8 hop | h_9 hop =>
    obtain ⟨himm, rfl⟩ := noOperand_eq_ok.1 h
    exact commandWord_of_fields hop himm
  case h_10 hop | h_11 hop | h_12 hop =>
    cases h
    exact commandWord_of_fields hop rfl
  case h_13 => cases h

/-- Settles O1: a word is its two fields, and each branch of the decoder fixes them both. -/
theorem decodeInvertsEncode : Obligations.DecodeInvertsEncode :=
  ⟨decode_encode, fun _ _ => encode_of_decode⟩

/-! ### Legal words by their fields -/

/-- The fields of the words the spec assigns a command: an operation without operand whose `imm16` is zero, or the
operation of a SET command (R82, R83). -/
abbrev AssignedFields (op : BitVec 4) (operandZero : Prop) : Prop :=
  (0x1 ≤ op ∧ op ≤ 0x9 ∧ operandZero) ∨ (0xA ≤ op ∧ op ≤ 0xC)

theorem assignedFields_iff_toNat (op : BitVec 4) (operandZero : Prop) : AssignedFields op operandZero ↔
    (1 ≤ op.toNat ∧ op.toNat ≤ 9 ∧ operandZero) ∨ (10 ≤ op.toNat ∧ op.toNat ≤ 12) := Iff.rfl

theorem decode_ok_iff (w : CmdWord) : (∃ i, decode w = .ok i) ↔ AssignedFields (opField w) (immField w = 0) := by
  rw [assignedFields_iff_toNat]
  unfold decode
  split
  case h_13 =>
    refine iff_of_false (by simp) ?_
    simp only [imp_false] at *
    omega
  all_goals simp [noOperand_eq_ok, *]

/-! ### The match and mask table -/

/-- Every row of the table masks its whole operation in, and its operand in or out, where its pattern is zero (R82). -/
theorem encodingTable_masks : ∀ r ∈ encodingTable, opField r.mask = 0xF ∧ immField r.pattern = 0 ∧
    (immField r.mask = BitVec.allOnes 16 ∨ immField r.mask = 0) := by decide

/-- A word selects a row that has its operation and, if the row has no operand, when `imm16` is zero. -/
theorem selects_iff {r : EncodingRow} (hr : r ∈ encodingTable) (w : CmdWord) :
    r.selects w = true ↔ opField w = opField r.pattern ∧ (immField r.mask ≠ 0 → immField w = 0) := by
  obtain ⟨hop, hpat, himm⟩ := encodingTable_masks r hr
  have hand : w &&& r.mask = commandWord (opField w) (immField w &&& immField r.mask) := by
    rw [← commandWord_fields w, ← commandWord_fields r.mask, commandWord_and, hop]
    simp only [opField_commandWord, immField_commandWord]
    exact congrArg (commandWord · _) BitVec.and_allOnes
  rw [EncodingRow.selects, beq_iff_eq, hand, ← commandWord_fields r.pattern, commandWord_inj, hpat]
  rcases himm with h | h <;> simp only [h, BitVec.and_allOnes] <;> simp

/-- No two rows of the table have one operation. -/
theorem encodingTable_op_inj : ∀ r ∈ encodingTable, ∀ r' ∈ encodingTable,
    opField r.pattern = opField r'.pattern → r = r' := by decide

/-- The table assigns the words `AssignedFields` tells; a Boolean stands for `imm16 = 0`. -/
theorem encodingTable_ops : ∀ (op : BitVec 4) (z : Bool),
    (∃ r ∈ encodingTable, op = opField r.pattern ∧ (immField r.mask ≠ 0 → z = true)) ↔
      AssignedFields op (z = true) := by decide

theorem legalWord_iff (w : CmdWord) : legalWord w = true ↔ AssignedFields (opField w) (immField w = 0) :=
  calc legalWord w = true
    _ ↔ ∃ r ∈ encodingTable, r.selects w = true := List.any_eq_true
    _ ↔ ∃ r ∈ encodingTable, opField w = opField r.pattern ∧ (immField r.mask ≠ 0 → immField w = 0) :=
      exists_congr fun r => and_congr_right fun hr => selects_iff hr w
    _ ↔ AssignedFields (opField w) (immField w = 0) := by
      simpa only [decide_eq_true_iff] using encodingTable_ops (opField w) (decide (immField w = 0))

theorem legalWord_iff_decode_ok (w : CmdWord) : legalWord w = true ↔ ∃ i, decode w = .ok i :=
  (legalWord_iff w).trans (decode_ok_iff w).symm

/-- An illegal word does not decode. -/
theorem decode_error_of_illegal {w : CmdWord} (h : legalWord w = false) : ∃ e, decode w = .error e := by
  cases hd : decode w with
  | error e => exact ⟨e, rfl⟩
  | ok i => simp [(legalWord_iff_decode_ok w).2 ⟨i, hd⟩] at h

/-- The encoder follows the table. -/
theorem encode_selects : ∀ i, Laws.EncodeRow.Statement i
  | .init => Laws.EncodeRow.init
  | .update => Laws.EncodeRow.update
  | .read => Laws.EncodeRow.read
  | .readFast => Laws.EncodeRow.readFast
  | .readSlow => Laws.EncodeRow.readSlow
  | .readSlope => Laws.EncodeRow.readSlope
  | .detPosPeak => Laws.EncodeRow.detPosPeak
  | .detNegPeak => Laws.EncodeRow.detNegPeak
  | .isConnected => Laws.EncodeRow.isConnected
  | .setFastCoeff imm16 => Laws.EncodeRow.setFastCoeff imm16
  | .setSlowCoeff imm16 => Laws.EncodeRow.setSlowCoeff imm16
  | .setSlopeCoeff imm16 => Laws.EncodeRow.setSlopeCoeff imm16

/-- Settles O2: a word has one operation, which one row at most has; and what decodes to `i` is the encoding of `i`. -/
theorem decoderFollowsMatchAndMask : Obligations.DecoderFollowsMatchAndMask := by
  refine ⟨fun w r r' hr hr' hs hs' => ?_, legalWord_iff_decode_ok, fun w i h => ?_⟩
  · obtain ⟨hop, -⟩ := (selects_iff hr w).1 hs
    obtain ⟨hop', -⟩ := (selects_iff hr' w).1 hs'
    exact encodingTable_op_inj r hr r' hr' (hop.symm.trans hop')
  · rw [← encode_of_decode h]
    exact encode_selects i

/-- The fields left over (R83); a Boolean stands for `imm16 = 0`. -/
theorem not_assignedFields_iff : ∀ (op : BitVec 4) (z : Bool), ¬ AssignedFields op (z = true) ↔
    (op = 0x0 ∨ op = 0xD ∨ op = 0xE ∨ op = 0xF) ∨ (0x1 ≤ op ∧ op ≤ 0x9 ∧ ¬ z = true) := by decide

/-- Settles O3: the legal words are those with `AssignedFields`. -/
theorem illegalWordsByFields : Obligations.IllegalWordsByFields := by
  intro w
  rw [← Bool.not_eq_true, legalWord_iff]
  simpa only [decide_eq_true_iff] using not_assignedFields_iff (opField w) (decide (immField w = 0))

/-- Settles O4: the decoder evaluates to these answers. -/
theorem specWordsDecode : Obligations.SpecWordsDecode := by
  unfold Obligations.SpecWordsDecode
  decide

end Sys2Proof

namespace Sys2Proof.Machine

/-! ### Illegal words are refused -/

/-- Settles O20: the fetch takes the word and the decoder gives it no command. -/
theorem illegalWordsAreRefused : Obligations.IllegalWordsAreRefused := by
  intro s w rest ha hc hw
  obtain ⟨e, hd⟩ := decode_error_of_illegal hw
  simp only [step, fetch_word ha hc, hd]
  rfl

end Sys2Proof.Machine
end

