-- ==== Sys2Proof/Proofs/OutputWords.lean ====
section
/-!
The words on the output ports (spec/30_encoding.md R84, R86): their fields, and that every step keeps them well formed,
because every part of a command appends at most one response or one diagnostic and leaves CHAN as it is.
-/
namespace Sys2Proof.Machine

/-! ### The fields of a word -/

/-- Settles O5: both words are two fields joined, read back field by field. -/
theorem outputWordFields : Obligations.OutputWordFields := by
  refine ⟨fun st data => ⟨?_, append_low st.code data⟩, fun c chan => ⟨?_, append_low c.code chan⟩, rfl, rfl, rfl⟩
  · rw [responseWord, append_high]
    cases st <;> rfl
  · rw [diagWord, append_high]
    cases c <;> rfl

/-! ### What every step keeps -/

/-- The words R84 defines, with data 0 unless the status is OK. -/
def IsResponse (r : RspWord) : Prop := ∃ st data, r = responseWord st data ∧ (st ≠ .ok → data = 0)

/-- The words R86 defines for one channel. -/
def IsDiagnostic (chan : BitVec 8) (w : DiagWord) : Prop := ∃ c, w = diagWord c chan

/-- The invariant is kept when the words output next meet its two clauses by themselves. -/
theorem OutputInvariant.append {s t : State} (h : OutputInvariant s) (hchan : t.chan = s.chan) (rs : List RspWord)
    (hr : t.responses = s.responses ++ rs) (hrs : ∀ r ∈ rs, IsResponse r) (new : List Transaction)
    (htr : t.trace = s.trace ++ new) (hds : ∀ w ∈ diagnosticsOf new, IsDiagnostic s.chan w) : OutputInvariant t where
  responses := by
    rw [hr]
    exact List.forall_mem_append.2 ⟨h.responses, hrs⟩
  diagnostics := by
    rw [Machine.diagnostics, htr, diagnosticsOf_append, hchan]
    exact List.forall_mem_append.2 ⟨h.diagnostics, hds⟩

/-- Transactions that emit no diagnostic do not matter. -/
theorem OutputInvariant.of_silent {s t : State} (h : OutputInvariant s) (hchan : t.chan = s.chan)
    (hr : t.responses = s.responses) (new : List Transaction) (htr : t.trace = s.trace ++ new)
    (hnew : diagnosticsOf new = []) : OutputInvariant t :=
  h.append hchan [] (by simp [hr]) (by simp) new htr (by simp [hnew])

/-- Where nothing is output, nothing else matters but CHAN. -/
theorem OutputInvariant.of_eq {s t : State} (h : OutputInvariant s) (hchan : t.chan = s.chan)
    (hr : t.responses = s.responses) (htr : t.trace = s.trace) : OutputInvariant t :=
  h.of_silent hchan hr [] (by simp [htr]) rfl

/-- A plain transaction emits a diagnostic with CHAN or none. -/
theorem IsPlainTransaction.diagnosticsOf {s : State} {t : Transaction} (h : IsPlainTransaction s t) :
    ∀ w ∈ diagnosticsOf [t], IsDiagnostic s.chan w := by
  cases t with
  | diag w => simpa [Machine.diagnosticsOf, IsPlainTransaction, IsDiagnostic] using h
  | _ => simp [Machine.diagnosticsOf]

theorem outputInvariant_stepClosed : StepClosed OutputInvariant where
  commands _ _ h := h.of_eq rfl rfl rfl
  acquiring _ _ h := h.of_eq rfl rfl rfl
  respond _ st d hd h := h.append rfl [responseWord st d] rfl (by simpa using ⟨st, d, rfl, hd⟩) [] (by simp) (by
    simp [diagnosticsOf])
  plain _ t ht h := h.append rfl [] (by simp) (by simp) [t] rfl ht.diagnosticsOf
  address _ h := h.of_silent rfl rfl _ (takeAddress_trace _) rfl
  setAddr _ _ h := h.of_eq rfl rfl rfl
  raw _ h := h.of_silent rfl rfl _ (takeRaw_trace _) rfl
  clock _ h := h.of_silent rfl rfl _ (takeClock_trace _) rfl
  request _ h := h.of_silent rfl rfl _ (requestAndStamp_trace _) rfl
  lost _ h := h.of_eq rfl rfl rfl
  seed _ _ _ _ h := h.of_eq (by simp) (by simp) (by simp)
  feed _ _ _ _ _ _ h := h.of_eq (by simp) (by simp) (by simp)
  coefficients _ _ _ h := h.of_eq (by simp) (by simp) (by simp)

/-- Settles O57: `OutputInvariant` is kept by every part of a command. -/
theorem outputInvariantKept : Obligations.OutputInvariantKept :=
  fun _ _ => outputInvariant_stepClosed.step

end Sys2Proof.Machine
end

