-- ==== Sys2Proof/Proofs/FixedPoint.lean ====
section
/-!
The arithmetic laws of spec/40_fixed_point.md: the saturating converter (R113, R114) and the three 32-bit operations
(R116 to R118), each with its exact value as an integer.
-/
namespace Sys2Proof.Machine

/-! ### The clamp -/

theorem clamp_eq_max_min {lo hi : Int} (h : lo ≤ hi) (v : Int) : clamp v lo hi = max lo (min v hi) := by
  unfold clamp
  split
  · omega
  · split <;> omega

theorem le_clamp {lo hi : Int} (h : lo ≤ hi) (v : Int) : lo ≤ clamp v lo hi := by
  rw [clamp_eq_max_min h]
  exact le_max_left ..

theorem clamp_le {lo hi : Int} (h : lo ≤ hi) (v : Int) : clamp v lo hi ≤ hi := by
  rw [clamp_eq_max_min h]
  exact max_le h (min_le_right ..)

theorem clamp_mono {lo hi v w : Int} (h : lo ≤ hi) (hvw : v ≤ w) : clamp v lo hi ≤ clamp w lo hi := by
  rw [clamp_eq_max_min h, clamp_eq_max_min h]
  gcongr

theorem clamp_of_mem {lo hi v : Int} (hlo : lo ≤ v) (hhi : v ≤ hi) : clamp v lo hi = v := by
  rw [clamp_eq_max_min (hlo.trans hhi), min_eq_left hhi, max_eq_right hlo]

theorem clamp_of_le {lo hi v : Int} (h : lo ≤ hi) (hv : v ≤ lo) : clamp v lo hi = lo := by
  rw [clamp_eq_max_min h, min_eq_left (hv.trans h), max_eq_left hv]

theorem clamp_of_ge {lo hi v : Int} (h : lo ≤ hi) (hv : hi ≤ v) : clamp v lo hi = hi := by
  rw [clamp_eq_max_min h, min_eq_right hv, max_eq_right h]

/-! ### The saturating converter -/

/-- The clamped sample of R113. -/
def clampedRaw (raw : Raw) : Int := clamp raw.toInt (-1024) 1023

theorem clampedRaw_mem (raw : Raw) : -1024 ≤ clampedRaw raw ∧ clampedRaw raw ≤ 1023 :=
  ⟨le_clamp (by decide) _, clamp_le (by decide) _⟩

theorem clampedRaw_of_mem {raw : Raw} (hlo : -1024 ≤ raw.toInt) (hhi : raw.toInt ≤ 1023) :
    clampedRaw raw = raw.toInt := clamp_of_mem hlo hhi

/-- The clamp comes before the shift, so the product fits 16 bits and nothing wraps (R113). -/
theorem rescaleSat_toInt (raw : Raw) : (rescaleSat raw).toInt = clampedRaw raw * 32 := by
  obtain ⟨hlo, hhi⟩ := clampedRaw_mem raw
  have hword : rescaleSat raw = BitVec.ofInt 16 (clampedRaw raw * 32) := by
    simp [rescaleSat, clampedRaw]
  rw [hword, BitVec.toInt_ofInt_eq_self] <;> omega

/-- The output is the clamped sample's 11 bits above five zeros (R113, R114). -/
theorem rescaleSat_eq_append (raw : Raw) : rescaleSat raw = BitVec.ofInt 11 (clampedRaw raw) ++ 0#5 := by
  obtain ⟨hlo, hhi⟩ := clampedRaw_mem raw
  have hfits : (BitVec.ofInt 11 (clampedRaw raw)).toInt = clampedRaw raw := by
    rw [BitVec.toInt_ofInt_eq_self] <;> omega
  apply BitVec.eq_of_toInt_eq
  rw [rescaleSat_toInt, BitVec.toInt_append_zero, hfits, mul_comm]
  rfl

/-- Settles O7: below, between and above the bounds the clamped sample is -1024, the sample and 1023. -/
theorem rescaleClampsThenShifts : Obligations.RescaleClampsThenShifts := by
  intro raw
  rw [rescaleSat_toInt]
  refine ⟨fun h => ?_, fun hlo hhi => ?_, fun h => ?_⟩
  · rw [clampedRaw, clamp_of_le (by decide) h]
    rfl
  · rw [clampedRaw_of_mem hlo hhi]
  · rw [clampedRaw, clamp_of_ge (by decide) h]
    rfl

theorem rescaleSat_toInt_of_mem {raw : Raw} (hlo : -1024 ≤ raw.toInt) (hhi : raw.toInt ≤ 1023) :
    (rescaleSat raw).toInt = 32 * raw.toInt := by
  rw [rescaleSat_toInt, clampedRaw_of_mem hlo hhi, mul_comm]

/-- Every multiple of 32 from -32768 to 32736 is an output, of the sample it is 32 times of. -/
theorem rescaleSat_ofInt {c : Int} (hlo : -1024 ≤ c) (hhi : c ≤ 1023) :
    (rescaleSat (BitVec.ofInt 32 c)).toInt = 32 * c := by
  have hc : (BitVec.ofInt 32 c).toInt = c := by
    rw [BitVec.toInt_ofInt_eq_self] <;> omega
  rw [rescaleSat_toInt_of_mem (hc.symm ▸ hlo) (hc.symm ▸ hhi), hc]

/-- Settles O8: the output is 32 times the clamped sample, so it inherits the clamp's bounds and order. -/
theorem rescaleProperties : Obligations.RescaleProperties := by
  refine ⟨fun raw => ?_, fun r1 r2 h => ?_, fun r1 r2 h1 hlt h2 => ?_, fun raw => rescaleSat_toInt_of_mem,
    fun raw => ?_, fun v => ⟨?_, ?_⟩⟩
  · have hmem := clampedRaw_mem raw
    rw [rescaleSat_toInt]
    omega
  · have hmono : clampedRaw r1 ≤ clampedRaw r2 := clamp_mono (by decide) h
    rw [rescaleSat_toInt, rescaleSat_toInt]
    omega
  · rw [rescaleSat_toInt_of_mem h1 (hlt.le.trans h2), rescaleSat_toInt_of_mem (h1.trans hlt.le) h2]
    omega
  · rw [rescaleSat_eq_append]
    exact append_low (BitVec.ofInt 11 (clampedRaw raw)) 0#5
  · rintro ⟨raw, rfl⟩
    obtain ⟨hlo, hhi⟩ := clampedRaw_mem raw
    exact ⟨clampedRaw raw, hlo, hhi, by rw [rescaleSat_toInt, mul_comm]⟩
  · rintro ⟨c, hlo, hhi, hv⟩
    exact ⟨BitVec.ofInt 32 c, BitVec.eq_of_toInt_eq ((rescaleSat_ofInt hlo hhi).trans hv.symm)⟩

/-! ### The 32-bit operations -/

/-- The integer difference taken modulo 2^32 is the machine's subtraction (R116). -/
theorem sub32_eq_sub (a b : Double) : sub32 a b = a - b := by
  rw [sub32, sub_eq_add_neg, BitVec.ofInt_add, BitVec.ofInt_neg, BitVec.ofInt_toInt, BitVec.ofInt_toInt,
    BitVec.sub_eq_add_neg]

theorem sub32_toInt {a b : Double} (hlo : -2 ^ 31 ≤ a.toInt - b.toInt) (hhi : a.toInt - b.toInt ≤ 2 ^ 31 - 1) :
    (sub32 a b).toInt = a.toInt - b.toInt :=
  BitVec.toInt_ofInt_eq_self (by decide) hlo (Int.lt_of_le_sub_one hhi)

/-- The integer product taken modulo 2^32 is the machine's multiplication (R117). -/
theorem mul32_eq_mul (a : Double) (k : Int) : mul32 a k = a * BitVec.ofInt 32 k := by
  rw [mul32, BitVec.ofInt_mul, BitVec.ofInt_toInt]

theorem mul32_slopeMult_toInt {a : Double} (h : SlopeInRange a) : (mul32 a 120).toInt = a.toInt * 120 := by
  obtain ⟨hlo, hhi⟩ := h
  rw [mul32, BitVec.toInt_ofInt_eq_self] <;> omega

/-- The bits 31:16 are the quotient and the bits 15:0 the remainder, which is never negative: the quotient is rounded
down (R118). -/
theorem toInt_eq_asr16 (a : Double) : a.toInt = 65536 * (asr16 a).toInt + (a.extractLsb' 0 16).toNat :=
  calc a.toInt
    _ = (asr16 a ++ a.extractLsb' 0 16).toInt := congrArg BitVec.toInt (append_fields (m := 16) (n := 16) a).symm
    _ = 65536 * (asr16 a).toInt + (a.extractLsb' 0 16).toNat := BitVec.toInt_append

theorem asr16_toInt (a : Double) : (asr16 a).toInt = a.toInt / 65536 := by
  have hsplit := toInt_eq_asr16 a
  have hlow := (a.extractLsb' 0 16).isLt
  omega

/-- Settles O9: a value that fits 32 bits is its own residue, and the quotient and remainder of the shift are the two
halves of the word. -/
theorem wordArithmetic : Obligations.WordArithmetic :=
  ⟨fun a b => ⟨sub32_eq_sub a b, sub32_toInt⟩, fun a => ⟨mul32_eq_mul a 120, mul32_slopeMult_toInt⟩, asr16_toInt⟩

/-! ### The slope delta -/

theorem sub32_toInt_of_deltaInRange {cur ref : Double} (h : DeltaInRange cur ref) :
    (sub32 cur ref).toInt = cur.toInt - ref.toInt := by
  have hlt : (cur.toInt - ref.toInt).natAbs < 2 ^ 31 := h
  exact sub32_toInt (by omega) (by omega)

/-- Settles O44: on CNT 1 the counter reaches 0 and the slope step feeds the difference. -/
theorem fireFeedsTheExactDelta : Obligations.FireFeedsTheExactDelta := by
  intro s hcnt hdelta
  have hfire : counterAfter s.cnt = 0#8 := by
    rw [hcnt]
    exact (counterAfter_eq_zero (by decide)).2 rfl
  exact ⟨sub32 (Config.F.readOutputDouble s.filtSlow) s.ref, (slopeStep_filtSlope s).trans (if_pos hfire),
    sub32_toInt_of_deltaInRange hdelta⟩

end Sys2Proof.Machine
end

