-- ==== Sys2Proof/Proofs/Slope.lean ====
section
/-!
The slope estimator (spec/41_slope.md): what `SlopeStep` does at each value of the counter (R130), the scale of its
read-out (R135), and the read commands (R140, R170 to R174).
-/
namespace Sys2Proof.Machine

/-! ### The read-out -/

theorem slopeScale_toInt {x : Double} (h : SlopeInRange x) : (slopeScale x).toInt = 120 * x.toInt / 65536 :=
  calc (slopeScale x).toInt
    _ = (mul32 x 120).toInt / 65536 := asr16_toInt _
    _ = 120 * x.toInt / 65536 := by rw [mul32_slopeMult_toInt h, mul_comm]

/-- Below 547 the product is below 65536 (R135). -/
theorem slopeScale_eq_zero {x : Double} (hlo : 0 ≤ x.toInt) (hhi : x.toInt < 547) : slopeScale x = 0 := by
  apply BitVec.eq_of_toInt_eq
  have hzero : (0 : Single).toInt = 0 := rfl
  rw [slopeScale_toInt ⟨by omega, by omega⟩, hzero]
  omega

/-- Settles O10: the product is the machine's own, and is shifted exactly where it fits 32 bits. -/
theorem slopeScaleValue : Obligations.SlopeScaleValue := by
  refine ⟨fun x => ?_, fun _ => slopeScale_toInt, fun _ => slopeScale_eq_zero, by decide, by decide, by decide⟩
  exact congrArg asr16 (mul32_eq_mul x 120)

/-- Settles O14: a read command is one read function of one filter, and its answer. -/
theorem readCommandsAnswer : Obligations.ReadCommandsAnswer :=
  fun _ => ⟨rfl, rfl, rfl, rfl, rfl, rfl⟩

/-! ### The slope step by the counter -/

/-- On 31 the slope step takes the reference (R130). -/
theorem slopeStep_of_first {s : State} (h : s.cnt = 31#8) :
    slopeStep s = { s with ref := Config.F.readOutputDouble s.filtSlow, cnt := 30 } := by
  have hnofire : counterAfter s.cnt ≠ 0#8 := by
    rw [h, counterAfter_first]
    decide
  have hcapture : slopeCapture s = { s with ref := Config.F.readOutputDouble s.filtSlow } := if_pos h
  rw [slopeStep_of_no_fire hnofire, hcapture, h, counterAfter_first]
  rfl

/-- On 1 it feeds the delta and takes the reference (R130). -/
theorem slopeStep_of_one {s : State} (h : s.cnt = 1#8) : slopeStep s = { s with
    filtSlope := Config.F.addDouble s.filtSlope (sub32 (Config.F.readOutputDouble s.filtSlow) s.ref)
    fed := s.fed ++ [(.slope, .addDouble (sub32 (Config.F.readOutputDouble s.filtSlow) s.ref))]
    ref := Config.F.readOutputDouble s.filtSlow, cnt := 30 } :=
  slopeStep_of_fire (by rw [h]; decide)

/-- On every other value but 0 it decrements the counter and does nothing else (R130). -/
theorem slopeStep_of_between {s : State} (h0 : s.cnt ≠ 0#8) (h1 : s.cnt ≠ 1#8) (h31 : s.cnt ≠ 31#8) :
    slopeStep s = { s with cnt := s.cnt - 1 } := by
  have hnofire : counterAfter s.cnt ≠ 0#8 := by rwa [ne_eq, counterAfter_eq_zero h0]
  have hcapture : slopeCapture s = s := if_neg h31
  rw [slopeStep_of_no_fire hnofire, hcapture, counterAfter_of_ne_zero h0]
  rfl

/-- Settles O43: from 2 to 30 the counter is none of 0, 1 and 31. -/
theorem slopeStepByCounter : Obligations.SlopeStepByCounter := by
  refine ⟨fun s => slopeStep_of_first, fun s => slopeStep_of_one, fun s hlo hhi => ?_⟩
  have hne {c : BitVec 8} (hc : ¬ (2 ≤ c ∧ c ≤ 30)) : s.cnt ≠ c := fun e => hc (e ▸ ⟨hlo, hhi⟩)
  exact slopeStep_of_between (hne (by decide)) (hne (by decide)) (hne (by decide))

end Sys2Proof.Machine
end

