-- ==== Sys2Proof/Proofs/UpdateTicks.lean ====
section
/-!
The paths of UPDATE that are a connected tick (spec/43_lifecycle.md R200, R201): path B on a fresh request, and path E.
-/
namespace Sys2Proof.Machine

/-- Settles O37: a fresh request and a valid reading leave steps 5, 5b and 6, in which the slope step goes by the
counter. -/
theorem updateNormalTick : Obligations.UpdateNormalTick := by
  intro s t0 raw rs t1 cs hl hclock hfresh hraw hvalid hcnt
  have hread : rawAnswer s = raw := rawAnswer_of_cons hraw
  have hstale : ¬ 5000#32 < elapsed (clockAnswer s) s.tReq := by
    rw [clockAnswer_of_cons hclock]
    exact BitVec.not_lt.2 hfresh
  set u := feedFilters (rescaleSat raw) (takeRaw (takeClock s)) with hu
  have hexec : exec .update s = .next (respondOk 0 (requestAndStamp (slopeStep u))) :=
    congrArg _ (updateCommand_of_valid hl hstale hraw hvalid)
  have hucnt : u.cnt = s.cnt := by simp [hu]
  rw [hexec, Host.Outcome.next.injEq]
  by_cases h1 : s.cnt = 1#8
  · rw [slopeStep_of_one (hucnt.trans h1)]
    apply State.ext <;> simp [hu, h1, hclock, hraw, hread, clockAnswer]
  · by_cases h31 : s.cnt = 31#8
    · rw [slopeStep_of_first (hucnt.trans h31)]
      apply State.ext <;> simp [hu, h31, hclock, hraw, hread, clockAnswer]
    · rw [slopeStep_of_between (by rwa [hucnt]) (by rwa [hucnt]) (by rwa [hucnt])]
      apply State.ext <;> simp [hu, h1, h31, hclock, hraw, hread, clockAnswer]

/-- InitProc returns Connected by its step 8 alone, with the counter loaded (R192). -/
theorem initProc_cnt {w : Raw} {s u : State} (h : initProc w s = .done u) (hl : u.lstate = .connected) :
    u.cnt = 31 := by
  obtain ⟨v, -, e | e | e⟩ := pollLoop_cases w s.rawIn.length (initBegin s) <;> rw [initProc, e] at h
  · cases h
    rw [initFinish_eq]
  · cases h
    exact nomatch hl
  · exact nomatch h

/-- A valid reading while Disconnected leaves InitProc, after 2000 ms, and what follows it (R200 step 4). -/
theorem updateCommand_of_back {w raw : Raw} {s : State} {rs : List Raw} (hl : s.lstate = .disconnected)
    (hraw : (updateStale s).rawIn = raw :: rs) (hvalid : raw ≠ w) :
    updateCommand w s = afterAcquisition w .update (initProc w (delay 2000 (takeRaw (updateStale s)))) := by
  have hread : rawAnswer (updateStale s) = raw := rawAnswer_of_cons hraw
  have hl' : (takeRaw (updateStale s)).lstate = .disconnected := (updateStale_lstate s).trans hl
  have hu : s.lstate ≠ .uninitialized := by simp [hl]
  simp only [updateCommand, hu, if_false, updateWithReading, hread, hvalid, hl', if_true, Params.tSettle]

/-- Once InitProc has returned Connected, a valid re-read is a connected tick, after RECONNECT (R200 step 4, R243). -/
theorem updateAfterInit_of_valid {w raw : Raw} {u : State} {rs : List Raw} (hl : u.lstate = .connected)
    (hraw : u.rawIn = raw :: rs) (hvalid : raw ≠ w) :
    updateAfterInit w u = updateFeed raw (diagEmit .reconnect (takeRaw u)) := by
  have hread : rawAnswer u = raw := rawAnswer_of_cons hraw
  simp only [updateAfterInit, hl, if_true, hread, hvalid, if_false]

/-- Settles O40: InitProc leaves 31 in the counter, so that the tick that follows takes the reference. -/
theorem updateReconnects : Obligations.UpdateReconnects := by
  rintro s _ u raw0 rs0 raw rs t cs hl rfl hraw0 hvalid0 hdone hconn hraw hvalid hclock
  have hread : rawAnswer u = raw := rawAnswer_of_cons hraw
  set v := feedFilters (rescaleSat raw) (diagEmit .reconnect (takeRaw u)) with hv
  have hexec : exec .update s = .next (respondOk 0 (requestAndStamp (slopeStep v))) := by
    show Host.Outcome.next (updateCommand Config.rawSentinel s) = _
    rw [updateCommand_of_back hl hraw0 hvalid0, hdone]
    exact congrArg _ (updateAfterInit_of_valid hconn hraw hvalid)
  have hcnt : v.cnt = 31#8 := by simp [hv, initProc_cnt hdone hconn]
  rw [hexec, slopeStep_of_first hcnt, Host.Outcome.next.injEq]
  apply State.ext <;> simp [hv, hclock, hraw, hread, clockAnswer]

end Sys2Proof.Machine
end

