-- ==== Sys2Proof/Proofs/Ticks.lean ====
section
/-!
Connected ticks (spec/41_slope.md R131, R136): the requests that end an UPDATE, which no delay follows, are as many as
the samples the fast filter receives, in every part of a command and so in every step.
-/
namespace Sys2Proof.Machine

/-! ### Ticks counted without times -/

/-- How many ticks `tickTimes` finds, whatever the times are. -/
def tickCount : List Transaction → Nat
  | .busRequestConversion :: .clockNow _ :: .delay _ :: tr => tickCount tr
  | .busRequestConversion :: tr => tickCount tr + 1
  | _ :: tr => tickCount tr
  | [] => 0

theorem length_tickTimes (tr : List Transaction) (times : List Nat) (h : times.length = tr.length + 1) :
    (tickTimes tr times).length = tickCount tr := by
  induction tr using tickCount.induct generalizing times with
  | case1 t n tr ih =>
    match times, h with
    | _ :: _ :: _ :: times, h => exact ih times (by simpa using h)
  | case2 tr hno ih =>
    match times, h with
    | now :: times, h =>
      rw [tickTimes.eq_2 _ _ _ fun t n r _ _ _ e _ => hno t n r e, tickCount.eq_2 _ hno, List.length_cons,
        ih times (by simpa using h)]
  | case3 x tr hno hx ih =>
    match times, h with
    | now :: times, h =>
      rw [tickTimes.eq_3 _ _ _ _ (fun _ _ _ _ _ _ e => absurd e hx) hx, tickCount.eq_3 _ _ hno hx,
        ih times (by simpa using h)]
  | case4 =>
    match times, h with
    | [_], _ => rfl

theorem tickCount_append (a b : List Transaction) (hb : OpensNoDelay b) :
    tickCount (a ++ b) = tickCount a + tickCount b := by
  have h := congrArg List.length
    (tickTimes_append a b hb (List.replicate a.length 0) (List.replicate b.length 0) 0 (by simp))
  rwa [List.length_append, length_tickTimes _ _ (by simp; omega), length_tickTimes _ _ (by simp),
    length_tickTimes _ _ (by simp)] at h

theorem tickCount_polls {new : List Transaction} (h : ∀ x ∈ new, IsPollTransaction x) : tickCount new = 0 := by
  induction new with
  | nil => rfl
  | cons x xs ih => cases x <;> simp_all [IsPollTransaction, tickCount]

theorem tickCount_openingTransactions (s : State) (answer : Option Addr) (t0 : Millis) :
    tickCount (openingTransactions s answer t0) = 0 := by
  cases answer <;> rfl

/-! ### Where a delay may stand -/

theorem opensNoDelay_iff (tr : List Transaction) :
    OpensNoDelay tr ↔ (∀ n r, tr ≠ .delay n :: r) ∧ ∀ t n r, tr ≠ .clockNow t :: .delay n :: r := by
  unfold OpensNoDelay
  split <;> simp_all

theorem OpensNoDelay.append {a b : List Transaction} (ha : OpensNoDelay a) (hb : OpensNoDelay b) :
    OpensNoDelay (a ++ b) := by
  rw [opensNoDelay_iff] at *
  match a, ha with
  | [], _ => exact hb
  | [x], ⟨hd, _⟩ => exact ⟨by simpa using hd, fun _ n r e => hb.1 n r (List.cons_eq_cons.1 e).2⟩
  | x :: y :: a, ⟨hd, hcd⟩ => exact ⟨by simpa using hd, by simpa using hcd⟩

theorem opensNoDelay_polls {new : List Transaction} (h : ∀ x ∈ new, IsPollTransaction x) : OpensNoDelay new := by
  have hd (n : BitVec 16) : .delay n ∉ new := fun hm => h _ hm
  refine (opensNoDelay_iff new).2 ⟨fun n r e => hd n ?_, fun t n r e => hd n ?_⟩ <;> simp [e]

/-! ### Samples -/

theorem sampleCount_append (a b : List FilterOp) : sampleCount (a ++ b) = sampleCount a + sampleCount b := by
  induction a with
  | nil => simp [sampleCount]
  | cons op a ih => cases op <;> simp [sampleCount, ih]; omega

/-! ### Ticks and samples of a part of a run -/

/-- From `s` to `t` there are `n` connected ticks: among the transactions, which may follow any others, and among the
operations on the fast filter. -/
def Ticks (n : Nat) (s t : State) : Prop :=
  ∃ new ops, t.trace = s.trace ++ new ∧ opsOf .fast t.fed = ops ++ opsOf .fast s.fed ∧
    OpensNoDelay new ∧ tickCount new = n ∧ sampleCount ops = n

theorem Ticks.trans {m n : Nat} {s t u : State} (h : Ticks m s t) (h' : Ticks n t u) : Ticks (m + n) s u := by
  obtain ⟨new, ops, htr, hfed, hopen, hticks, hsamples⟩ := h
  obtain ⟨new', ops', htr', hfed', hopen', hticks', hsamples'⟩ := h'
  refine ⟨new ++ new', ops' ++ ops, by simp [htr', htr], by simp [hfed', hfed], hopen.append hopen', ?_, ?_⟩
  · rw [tickCount_append _ _ hopen', hticks, hticks']
  · rw [sampleCount_append, hsamples, hsamples', Nat.add_comm]

/-- What feeds no filter and makes no tick. -/
theorem Ticks.of_unfed {s t : State} (new : List Transaction) (htrace : t.trace = s.trace ++ new)
    (hfed : t.fed = s.fed) (hopen : OpensNoDelay new) (hticks : tickCount new = 0) : Ticks 0 s t :=
  ⟨new, [], htrace, by simp [hfed], hopen, hticks, rfl⟩

theorem Ticks.of_silent {s t : State} (htrace : t.trace = s.trace) (hfed : t.fed = s.fed) : Ticks 0 s t :=
  .of_unfed [] (by simp [htrace]) hfed trivial rfl

/-- At most one tick: as many as a command makes. -/
def TicksAtMostOnce (s t : State) : Prop := ∃ n ≤ 1, Ticks n s t

theorem Ticks.atMostOnce {s t : State} (h : Ticks 0 s t) : TicksAtMostOnce s t := ⟨0, Nat.zero_le 1, h⟩

theorem Ticks.then {s t u : State} (h : Ticks 0 s t) (h' : TicksAtMostOnce t u) : TicksAtMostOnce s u := by
  obtain ⟨n, hn, h'⟩ := h'
  exact ⟨n, hn, Nat.zero_add n ▸ h.trans h'⟩

/-! ### The parts of a command -/

theorem PolledFrom.ticks {s t : State} (h : PolledFrom s t) : Ticks 0 s t := by
  obtain ⟨new, htrace, hnew⟩ := h.trace
  have hfed : t.fed = s.fed := h.waitedFrom.fed
  exact .of_unfed new htrace hfed (opensNoDelay_polls hnew) (tickCount_polls hnew)

/-- A request followed by its delay is no tick. -/
theorem updateStale_ticks (s : State) : Ticks 0 s (updateStale s) := by
  have hclock : Ticks 0 s (takeClock s) := (takeClock_polledFrom s).ticks
  rcases updateStale_cases s with ⟨-, e⟩ | ⟨-, e⟩ <;> rw [e]
  · exact hclock
  · have hrequest : Ticks 0 (takeClock s) (record (.delay 750) (requestAndStamp (takeClock s))) :=
      .of_unfed [.busRequestConversion, .clockNow (clockAnswer (takeClock s)), .delay 750] (by simp) rfl trivial rfl
    exact hclock.trans hrequest

theorem initBegin_ticks (s : State) : Ticks 0 s (initBegin s) := by
  rw [initBegin_eq]
  exact .of_unfed _ rfl rfl trivial (tickCount_openingTransactions s _ _)

/-- An acquisition seeds the filters and adds no sample (R192 step 8). -/
theorem initFinish_ticks (s : State) : Ticks 0 s (initFinish s) := by
  rw [initFinish_eq]
  exact ⟨_, [.init (rescaleSat (rawAnswer s))], rfl, by simp, trivial, rfl, rfl⟩

theorem updateLost_ticks (s : State) : Ticks 0 s (updateLost s) := by
  rw [updateLost_eq]
  refine .of_unfed _ rfl rfl ?_ ?_ <;> split <;> trivial

/-- Steps 5, 5b and 6 of UPDATE add one sample, and the request that ends them is the tick (R200). -/
theorem updateFeed_ticks (raw : Raw) (s : State) : Ticks 1 s (updateFeed raw s) := by
  have htrace : (updateFeed raw s).trace = s.trace ++
      [.busRequestConversion, .clockNow (clockAnswer (slopeStep (feedFilters (rescaleSat raw) s)))] := by
    simp [updateFeed]
  exact ⟨_, [.add (rescaleSat raw)], htrace, by simp [updateFeed], trivial, rfl, rfl⟩

theorem Completes.ticksAtMostOnce {c : Caller} {u t : State} (h : Completes c u t) : TicksAtMostOnce u t := by
  have hread : Ticks 0 u (takeRaw (initFinish u)) := (initFinish_ticks u).trans (takeRaw_polledFrom _).ticks
  cases h with
  | polling => exact (Ticks.of_silent rfl rfl).atMostOnce
  | timedOut => exact (Ticks.of_silent rfl rfl).atMostOnce
  | initialised => exact ((initFinish_ticks u).trans (.of_silent rfl rfl)).atMostOnce
  | lostAgain => exact (hread.trans (updateLost_ticks _)).atMostOnce
  | reconnected raw =>
    have hdiag : Ticks 0 (takeRaw (initFinish u)) (diagEmit .reconnect (takeRaw (initFinish u))) :=
      .of_unfed [_] rfl rfl trivial rfl
    exact (hread.trans hdiag).then ⟨1, Nat.le_refl 1, updateFeed_ticks raw _⟩

/-- InitProc and what follows it, for either caller. -/
theorem initProc_ticksAtMostOnce (w : Raw) (c : Caller) (s : State) :
    TicksAtMostOnce s (afterAcquisition w c (initProc w s)) :=
  ((initBegin_ticks s).trans (pollLoop_polledFrom w _ _).ticks).then (afterAcquisition_completes w c _).ticksAtMostOnce

theorem updateCommand_ticksAtMostOnce (w : Raw) (s : State) : TicksAtMostOnce s (updateCommand w s) := by
  unfold updateCommand
  split
  · exact (Ticks.of_silent rfl rfl).atMostOnce
  · refine (updateStale_ticks s).then ?_
    have hread := (takeRaw_polledFrom (updateStale s)).ticks
    dsimp only [updateWithReading]
    split
    · exact (hread.trans (updateLost_ticks _)).atMostOnce
    · split
      · have hsettle : Ticks 0 (updateStale s) (delay Params.tSettle (takeRaw (updateStale s))) :=
          .of_unfed [.busReadRaw (updateStale s).addr (rawAnswer (updateStale s)), .delay 2000] (by simp) rfl trivial
            rfl
        exact hsettle.then (initProc_ticksAtMostOnce w .update _)
      · exact hread.then ⟨1, Nat.le_refl 1, updateFeed_ticks _ _⟩

/-- A coefficient write is no sample (R160). -/
theorem setCoefficients_ticks (k : FilterSel) (p : Coeff) (s : State) :
    Ticks 0 s (respondOk 0 (operate k (.setCoefficients p) s)) := by
  refine ⟨[], if k = .fast then [.setCoefficients p] else [], by simp, by simp, trivial, rfl, ?_⟩
  split <;> rfl

theorem exec_ticksAtMostOnce {i : Instr} {s t : State} (h : exec i s = .next t) : TicksAtMostOnce s t := by
  cases i with
  | init =>
    cases h
    exact initProc_ticksAtMostOnce _ .init s
  | update =>
    cases h
    exact updateCommand_ticksAtMostOnce _ s
  | setFastCoeff | setSlowCoeff | setSlopeCoeff =>
    cases h
    exact (setCoefficients_ticks _ _ s).atMostOnce
  | _ =>
    cases h
    exact (Ticks.of_silent rfl rfl).atMostOnce

/-! ### Every step -/

/-- A step makes at most one connected tick, and a tick is a sample (R131). -/
theorem step_ticksAtMostOnce {s t : State} (h : step s = .next t) : TicksAtMostOnce s t := by
  rcases step_cases h with ⟨-, -, rfl⟩ | ⟨c, -, rfl⟩ | ⟨w, rest, -, -, ⟨i, -, he⟩ | rfl⟩
  · exact (Ticks.of_silent rfl rfl).atMostOnce
  · have hpoll := (pollOnce_polledFrom Config.rawSentinel { s with acquiring := none }).ticks
    have hsame : Ticks 0 s { s with acquiring := none } := .of_silent rfl rfl
    exact (hsame.trans hpoll).then (afterAcquisition_completes _ c _).ticksAtMostOnce
  · have hsame : Ticks 0 s { s with commands := rest } := .of_silent rfl rfl
    exact hsame.then (exec_ticksAtMostOnce he)
  · exact (Ticks.of_silent rfl rfl).atMostOnce

/-- Settles O33: what a step appends may follow any transactions, and has as many ticks as samples. -/
theorem ticksAreSamples : Obligations.TicksAreSamples := by
  intro s t h
  obtain ⟨n, -, new, ops, htrace, hfed, hopen, hticks, hsamples⟩ := step_ticksAtMostOnce h
  refine ⟨new, ops, htrace, hfed, fun before now after hbefore hafter => ⟨?_, ?_⟩⟩
  · rw [htrace]
    exact tickTimes_append _ _ hopen before after now hbefore
  · rw [length_tickTimes new (now :: after) (by simp [hafter]), hticks, hsamples]

end Sys2Proof.Machine
end

