-- ==== Sys2Proof/Proofs/Cadence.lean ====
section
/-!
The cadence of the slope filter's deltas (spec/41_slope.md R131, R136): every delta is fed on a connected tick whose
number is 1 more than a multiple of 30, so that two successive ones are 30 ticks apart.
-/
namespace Sys2Proof.Machine

/-! ### Counts of a filter's record -/

theorem initCount_append (a b : List FilterOp) : initCount (a ++ b) = initCount a + initCount b := by
  induction a with
  | nil => simp [initCount]
  | cons op a ih => cases op <;> simp [initCount, ih]; omega

/-- Coefficient writes are no initialisations (R160). -/
theorem initCount_inputsOf (ops : List FilterOp) : initCount (inputsOf ops) = initCount ops := by
  induction ops with
  | nil => rfl
  | cons op ops ih => cases op <;> simp [inputsOf, initCount, ih]

/-- Coefficient writes are no deltas (R160). -/
theorem deltasSinceInit_inputsOf (ops : List FilterOp) : deltasSinceInit (inputsOf ops) = deltasSinceInit ops := by
  induction ops with
  | nil => rfl
  | cons op ops ih => cases op <;> simp [inputsOf, deltasSinceInit, ih]

/-- With no initialisation among them, later samples add to the earlier ones. -/
theorem addsSinceInit_append {a : List FilterOp} (b : List FilterOp) (h : initCount a = 0) :
    addsSinceInit (a ++ b) = sampleCount a + addsSinceInit b := by
  induction a with
  | nil => simp [sampleCount]
  | cons op a ih =>
    cases op with
    | init seed => simp [initCount] at h
    | add v =>
      rw [List.cons_append, addsSinceInit, sampleCount, ih h]
      omega
    | addDouble v => exact ih h
    | setCoefficients p => exact ih h

/-! ### The schedule in force -/

/-- The connected ticks since the entry into Connected (R131). -/
def tickNumber (s : State) : Nat := addsSinceInit (opsOf .fast s.fed)

/-- The deltas fed since the entry into Connected (R131). -/
def deltaNumber (s : State) : Nat := deltasSinceInit (opsOf .slope s.fed)

/-- The filters have been initialised and the schedule of R131 holds. -/
structure Scheduled (s : State) : Prop where
  schedule : ScheduleInvariant s
  acquisition : AcquisitionInvariant s
  initialised : initCount (opsOf .fast s.fed) ≠ 0

theorem Scheduled.deltaNumber_eq {s : State} (h : Scheduled s) : deltaNumber s = (tickNumber s - 1) / 30 :=
  (h.schedule h.initialised).1

/-- While the slope filter is not initialised anew, no filter is, and the connected ticks count on. -/
theorem Scheduled.after_ticks {n : Nat} {s t : State} (hs : Scheduled s) (hschedule : ScheduleInvariant t)
    (hacquisition : AcquisitionInvariant t) (hticks : Ticks n s t)
    (hinit : initCount (opsOf .slope t.fed) = initCount (opsOf .slope s.fed)) :
    Scheduled t ∧ tickNumber t = tickNumber s + n := by
  have hfast : initCount (opsOf .fast t.fed) = initCount (opsOf .fast s.fed) := by
    rw [← hacquisition.together .slope, ← hs.acquisition.together .slope, hinit]
  obtain ⟨-, ops, -, hfed, -, -, hsamples⟩ := hticks
  have hops : initCount ops = 0 := by
    rw [hfed, initCount_append] at hfast
    omega
  refine ⟨⟨hschedule, hacquisition, by rw [hfast]; exact hs.initialised⟩, ?_⟩
  rw [tickNumber, tickNumber, hfed, addsSinceInit_append _ hops, hsamples, Nat.add_comm]

/-! ### A delta is fed after an initialisation -/

/-- From `s` on, the slope filter has been initialised or has not been fed. -/
structure SlopeFedInitialised (s t : State) : Prop where
  together : InitialisedTogether t
  slope : initCount (opsOf .slope t.fed) ≠ 0 ∨ inputsOf (opsOf .slope t.fed) = inputsOf (opsOf .slope s.fed)

/-- Where nothing is fed, LSTATE may at most become Disconnected. -/
theorem SlopeFedInitialised.of_fed_eq {s t u : State} (h : SlopeFedInitialised s t) (hfed : u.fed = t.fed)
    (hl : u.lstate = t.lstate ∨ u.lstate = .disconnected) : SlopeFedInitialised s u :=
  ⟨h.together.of_fed_eq hfed hl, by rw [hfed]; exact h.slope⟩

theorem SlopeFedInitialised.of_initialised {s t : State} (h : InitialisedTogether t)
    (hi : initCount (opsOf .fast t.fed) ≠ 0) : SlopeFedInitialised s t :=
  ⟨h, .inl (by rwa [h.together])⟩

theorem slopeFedInitialised_stepClosed (s : State) : StepClosed (SlopeFedInitialised s) where
  commands _ _ h := h.of_fed_eq rfl (.inl rfl)
  acquiring _ _ h := h.of_fed_eq rfl (.inl rfl)
  respond _ _ _ _ h := h.of_fed_eq rfl (.inl rfl)
  plain _ _ _ h := h.of_fed_eq rfl (.inl rfl)
  address _ h := h.of_fed_eq rfl (.inl rfl)
  setAddr _ _ h := h.of_fed_eq rfl (.inl rfl)
  raw _ h := h.of_fed_eq rfl (.inl rfl)
  clock _ h := h.of_fed_eq rfl (.inl rfl)
  request _ h := h.of_fed_eq rfl (.inl rfl)
  lost _ h := h.of_fed_eq rfl (.inr rfl)
  seed _ _ _ hm h := .of_initialised (initialisedTogether_stepClosed.seed _ _ _ hm h.together) (by
    rw [initCount_connect]
    exact Nat.succ_ne_zero _)
  feed _ _ _ hm hr hl h := .of_initialised (initialisedTogether_stepClosed.feed _ _ _ hm hr hl h.together) (by
    rw [initCount_tick]
    exact h.together.connected hl)
  coefficients t k p h := by
    refine ⟨h.together.setCoefficients k p, ?_⟩
    rw [operate_fed, opsOf_append, opsOf_singleton]
    split <;> exact h.slope

/-- The slope filter that is fed a delta has been initialised before. -/
theorem Fires.initialised {s t : State} (h : Fires s t) (hs : AcquisitionInvariant s) :
    initCount (opsOf .fast s.fed) ≠ 0 := by
  obtain ⟨d, hd⟩ := h.delta
  have hclosed := slopeFedInitialised_stepClosed s
  have ht := hclosed.step ⟨⟨hs.together, hs.connected, hs.uninitialized⟩, .inr rfl⟩ h.step
  rcases ht.slope with hi | hi
  · rwa [hd, initCount, hs.together] at hi
  · rw [hd, inputsOf] at hi
    exact absurd hi (List.cons_ne_self _ _)

/-! ### The ticks of deltas -/

/-- A step that feeds a delta is a connected tick, and the ones before it are a multiple of 30 (R131). -/
theorem Fires.ticks {s t : State} (h : Fires s t) (hs : Scheduled s) :
    Scheduled t ∧ Ticks 1 s t ∧ tickNumber t = tickNumber s + 1 ∧ tickNumber s % 30 = 0 := by
  obtain ⟨d, hd⟩ := h.delta
  obtain ⟨n, hn, hticks⟩ := step_ticksAtMostOnce h.step
  obtain ⟨ht, hnumber⟩ := hs.after_ticks (scheduleInvariantKept s t hs.schedule h.step)
    (acquisitionInvariantKept s t hs.acquisition h.step) hticks (by rw [hd, initCount])
  have hdelta : deltaNumber t = deltaNumber s + 1 := by rw [deltaNumber, hd, deltasSinceInit, deltaNumber]
  rw [ht.deltaNumber_eq, hs.deltaNumber_eq, hnumber] at hdelta
  obtain rfl : n = 1 := by omega
  exact ⟨ht, hticks, hnumber, by omega⟩

theorem run_ticks (n : Nat) {s t : State} (h : Host.Core.run core n s = .next t) : ∃ m, Ticks m s t := by
  induction n generalizing s with
  | zero =>
    cases h
    exact ⟨0, .of_silent rfl rfl⟩
  | succ n ih =>
    obtain ⟨u, hu, h⟩ := run_succ_cases h
    obtain ⟨k, -, hk⟩ := step_ticksAtMostOnce hu
    obtain ⟨m, hm⟩ := ih h
    exact ⟨k + m, hk.trans hm⟩

/-- From a delta to the next one, both steps included, there are 31 connected ticks (R131). -/
theorem ticks_between_fires {s u v w : State} {n : Nat} (hschedule : ScheduleInvariant s)
    (hacquisition : AcquisitionInvariant s) (hfire : Fires s u) (hrun : Host.Core.run core n u = .next v)
    (hslope : inputsOf (opsOf .slope v.fed) = inputsOf (opsOf .slope u.fed)) (hfire' : Fires v w) : Ticks 31 s w := by
  obtain ⟨hu, hsu, hnu, hs30⟩ := hfire.ticks ⟨hschedule, hacquisition, hfire.initialised hacquisition⟩
  obtain ⟨m, huv⟩ := run_ticks n hrun
  obtain ⟨hv, hnv⟩ := hu.after_ticks (run_keeps scheduleInvariantKept n hu.schedule hrun)
    (run_keeps acquisitionInvariantKept n hu.acquisition hrun) huv
    (by rw [← initCount_inputsOf, hslope, initCount_inputsOf])
  obtain ⟨-, hvw, -, hv30⟩ := hfire'.ticks hv
  have hdelta : deltaNumber v = deltaNumber u := by
    rw [deltaNumber, deltaNumber, ← deltasSinceInit_inputsOf, hslope, deltasSinceInit_inputsOf]
  rw [hv.deltaNumber_eq, hu.deltaNumber_eq, hnv, hnu] at hdelta
  obtain rfl : m = 29 := by omega
  exact (hsu.trans huv).trans hvw

/-! ### The times of ticks -/

/-- At a cadence of one second the `i`-th tick after the first comes `i` seconds after it (R136). -/
theorem CadenceOneSecond.tick_time {tr : List Transaction} {times : List Nat} (h : CadenceOneSecond tr times)
    {first now : Nat} (hfirst : (tickTimes tr times)[0]? = some first) (i : Nat)
    (hnow : (tickTimes tr times)[i]? = some now) : now = first + 1000 * i := by
  induction i generalizing now with
  | zero => exact Option.some.inj (hnow.symm.trans hfirst)
  | succ i ih =>
    obtain ⟨hlt, -⟩ := List.getElem?_eq_some_iff.1 hnow
    have hbefore := List.getElem?_eq_getElem (Nat.lt_of_succ_lt hlt)
    rw [h i _ now hbefore hnow, ih hbefore]
    omega

/-- Settles O34: the trace is that of 31 ticks, and from the first to the last there are 30 seconds. -/
theorem cadenceSpansTheDecimation : Obligations.CadenceSpansTheDecimation := by
  intro s u v w n new times hschedule hacquisition hfire hrun hslope hfire' htrace htimes
  obtain ⟨new', -, htrace', -, -, hticks, -⟩ :=
    ticks_between_fires hschedule hacquisition hfire hrun hslope hfire'
  obtain rfl : new = new' := List.append_cancel_left (htrace.symm.trans htrace')
  have hlength : (tickTimes new times).length = 31 := (length_tickTimes new times htimes).trans hticks
  refine ⟨hlength, fun hcadence => ?_⟩
  have hfirst := List.getElem?_eq_getElem (l := tickTimes new times) (i := 0) (by omega)
  have hlast := List.getElem?_eq_getElem (l := tickTimes new times) (i := 30) (by omega)
  have hend : (tickTimes new times).getLast? = (tickTimes new times)[30]? := by
    rw [List.getLast?_eq_getElem?, hlength]
  exact ⟨_, _, List.head?_eq_getElem?.trans hfirst, hend.trans hlast, hcadence.tick_time hfirst 30 hlast⟩

end Sys2Proof.Machine
end

