-- ==== Sys2Proof/Proofs/FilterStage.lean ====
section
/-!
The Filter Stage and the commands that reach it between two ticks (spec/42_filter_stage.md): the laws of F (R152 to
R157), the queries (R161, R175) and the SET commands (R176 to R178).
-/
namespace Sys2Proof.Machine

/-! ### The laws of F -/

/-- Settles O12: the laws R152 and R153 of the component. -/
theorem filterStageLaws : Obligations.FilterStageLaws :=
  ⟨fun h seed => ⟨readInput_init h seed, readOutput_init h seed⟩, readInput_add⟩

/-- Settles O13: the law R156 of the component, and its law R157 read by read. -/
theorem coefficientLaws : Obligations.CoefficientLaws :=
  ⟨Config.F.init_keeps_coefficients, fun h p =>
    ⟨readInput_setCoefficients h p, readOutput_setCoefficients h p, readOutputDouble_setCoefficients h p,
      detectPosPeak_setCoefficients h p, detectNegPeak_setCoefficients h p⟩⟩

/-! ### Queries -/

/-- A query gives its answer and does nothing else (R175). -/
theorem exec_of_isQuery {q : Instr} (hq : isQuery q = true) (s : State) :
    exec q s = .next (respond .ok (queryData s q) s) := by
  cases q with
  | init | update | setFastCoeff | setSlowCoeff | setSlopeCoeff => exact nomatch hq
  | _ => rfl

/-- Of a state, queries see LSTATE and what can be read off the filters, and nothing else (R161, R210). -/
theorem queryData_congr {s t : State} (hl : t.lstate = s.lstate)
    (hr : ∀ k f, readFn f (filt k t) = readFn f (filt k s)) (q : Instr) : queryData t q = queryData s q := by
  cases q with
  | read => exact hr .fast .input
  | readFast => exact hr .fast .output
  | readSlow => exact hr .slow .output
  | readSlope => exact hr .slope .outputDoubleScaled
  | detPosPeak => exact hr .slow .posPeak
  | detNegPeak => exact hr .slow .negPeak
  | isConnected => simp only [queryData, hl]
  | init | update | setFastCoeff | setSlowCoeff | setSlopeCoeff => rfl

/-- A step that takes a query's word answers it. -/
theorem step_of_query {s : State} {q : Instr} {rest : List CmdWord} (hq : isQuery q = true) (ha : s.acquiring = none)
    (hc : s.commands = encode q :: rest) :
    step s = .next { s with commands := rest, responses := s.responses ++ [responseWord .ok (queryData s q)] } := by
  have hdata : queryData { s with commands := rest } q = queryData s q := queryData_congr rfl (fun _ _ => rfl) q
  rw [step_of_word ha hc (decode_encode q), exec_of_isQuery hq, hdata]
  rfl

/-- Settles O18: each query leaves a state in which the later ones answer as they would have before it. -/
theorem queriesLeaveTheMachineAlone : Obligations.QueriesLeaveTheMachineAlone := by
  intro qs
  induction qs with
  | nil =>
    intro s rest _ _ hc
    obtain rfl : s.commands = rest := hc
    simp [run_zero]
  | cons q qs ih =>
    intro s rest hqs ha hc
    obtain ⟨hq, hqs⟩ := List.forall_mem_cons.1 hqs
    have hrun := ih { s with
      commands := qs.map encode ++ rest, responses := s.responses ++ [responseWord .ok (queryData s q)] }
      rest hqs ha rfl
    have hdata (cs rs) : queryData { s with commands := cs, responses := rs } = queryData s :=
      funext (queryData_congr rfl fun _ _ => rfl)
    rw [List.length_cons, run_succ _ (step_of_query hq ha hc)]
    refine hrun.trans ?_
    simp [hdata]

/-! ### The SET commands -/

/-- Settles O16: a SET command operates on its filter and answers. -/
theorem setCommandsWriteOneFilter : Obligations.SetCommandsWriteOneFilter :=
  fun _ _ => ⟨rfl, rfl, rfl⟩

/-- A coefficient write changes what is read off no filter, neither its own (R157) nor another (R155). -/
theorem readFn_operate_setCoefficients (f : ReadFn) (k k' : FilterSel) (p : Coeff) (s : State) :
    readFn f (filt k' (operate k (.setCoefficients p) s)) = readFn f (filt k' s) := by
  rw [filt_operate]
  split
  · cases f <;> simp [readFn]
  · rfl

/-- Settles O17: a SET command writes coefficients and answers, and neither is seen by a query. -/
theorem setCommandsAreDeferred : Obligations.SetCommandsAreDeferred := by
  intro s t i q p hi hq ht
  obtain ⟨k, rfl⟩ : ∃ k, t = respond .ok 0 (operate k (.setCoefficients p) s) := by
    rcases hi with rfl | rfl | rfl <;> cases ht
    exacts [⟨.fast, rfl⟩, ⟨.slow, rfl⟩, ⟨.slope, rfl⟩]
  have hl : (respond .ok 0 (operate k (.setCoefficients p) s)).lstate = s.lstate := by simp
  have hdata := queryData_congr hl (fun k' f => readFn_operate_setCoefficients f k k' p s) q
  rw [exec_of_isQuery hq, hdata]
  rfl

end Sys2Proof.Machine
end

