-- ==== Sys2Proof/Proofs/Readings.lean ====
section
/-!
Where a reading of the bus goes: INIT seeds the filters with it (spec/43_lifecycle.md R193), UPDATE feeds it to them
(R200), and READ answers with it (spec/42_filter_stage.md R170).
-/
namespace Sys2Proof.Machine

/-! ### INIT -/

/-- Settles O27: an INIT that leaves Connected and no spin-wait has ended with steps 7 and 8, whose reading is the
seed. -/
theorem acquiredSeedIsRead : Obligations.AcquiredSeedIsRead := by
  intro s t h hl ha
  obtain rfl : initCommand Config.rawSentinel s = t := Host.Outcome.next.inj h
  obtain ⟨u, -, hc⟩ := initCommand_path Config.rawSentinel s
  generalize initCommand Config.rawSentinel s = t at hl ha hc ⊢
  cases hc with
  | polling => exact nomatch ha
  | timedOut => exact nomatch hl
  | initialised =>
    refine ⟨u.addr, rawAnswer u, u.trace ++ [.busRequestConversion, .clockNow (clockAnswer u), .delay 750], ?_⟩
    simp [initFinish_eq, queryData]
  | lostAgain hi => exact nomatch hi
  | reconnected _ hi => exact nomatch hi

/-! ### UPDATE -/

/-- While Connected a valid reading leaves steps 5, 5b and 6 of UPDATE, after its step 1 (R200). -/
theorem updateCommand_of_connected {w raw : Raw} {s : State} {rs : List Raw} (hl : s.lstate = .connected)
    (hraw : (updateStale s).rawIn = raw :: rs) (hvalid : raw ≠ w) :
    updateCommand w s = updateFeed raw (takeRaw (updateStale s)) := by
  have hread : rawAnswer (updateStale s) = raw := rawAnswer_of_cons hraw
  have hl' : (updateStale s).lstate = .connected := (updateStale_lstate s).trans hl
  simp [updateCommand, updateWithReading, hl, hl', hread, hvalid]

/-- Settles O38: what the slope step does goes by the filters, the counter and the reference, which are the same before
the reading is taken and after. -/
theorem updateFeedsAValidReading : Obligations.UpdateFeedsAValidReading := by
  rintro s s1 raw rs t cs hl rfl hraw hvalid hclock
  refine ⟨_, rfl, ?_⟩
  have hread : rawAnswer (updateStale s) = raw := rawAnswer_of_cons hraw
  have hexec : exec .update s = .next (updateFeed raw (takeRaw (updateStale s))) :=
    congrArg _ (updateCommand_of_connected hl hraw hvalid)
  generalize updateStale s = s1 at *
  rw [hexec, Host.Outcome.next.injEq]
  by_cases hfire : counterAfter s1.cnt = 0#8
  · apply State.ext <;> simp [updateFeed, slopeDelta, hfire, hread, hraw, hclock, clockAnswer]
  · by_cases hfirst : s1.cnt = 31#8 <;> apply State.ext <;>
      simp [updateFeed, slopeDelta, hfire, hfirst, hread, hraw, hclock, clockAnswer]

/-! ### READ -/

/-- The input of a filter fed as R160 has it is a converted reading, from its first initialisation on: seeds and samples
are such readings, and coefficient writes leave the input alone (R152, R153, R157). -/
theorem readInput_of_fastFed {s : State} {ops : List FilterOp} (hfed : ∀ op ∈ ops, FastFed s op)
    (hinit : initCount ops ≠ 0) (h : FilterState) : ∃ a raw, .busReadRaw a raw ∈ s.trace ∧
      Config.F.readInput (ops.foldr Config.F.apply h) = rescaleSat raw := by
  induction ops with
  | nil => exact absurd rfl hinit
  | cons op ops ih =>
    obtain ⟨hop, hops⟩ := List.forall_mem_cons.1 hfed
    cases op with
    | init seed =>
      obtain ⟨a, raw, hm, rfl⟩ := hop
      exact ⟨a, raw, hm, readInput_init _ _⟩
    | add v =>
      obtain ⟨a, raw, hm, -, rfl⟩ := hop
      exact ⟨a, raw, hm, readInput_add _ _⟩
    | addDouble _ => exact hop.elim
    | setCoefficients p =>
      obtain ⟨a, raw, hm, e⟩ := ih hops hinit
      exact ⟨a, raw, hm, (readInput_setCoefficients _ p).trans e⟩

/-- Settles O52: the fast filter is what F makes of its record, which holds readings. -/
theorem readIsAConvertedReading : Obligations.ReadIsAConvertedReading := by
  intro s hrecord hfeed hinit
  obtain ⟨a, raw, hm, e⟩ := readInput_of_fastFed hfeed.fast hinit Config.F.resetState
  have hfast : s.filtFast = (opsOf .fast s.fed).foldr Config.F.apply Config.F.resetState := hrecord .fast
  exact ⟨a, raw, hm, (congrArg Config.F.readInput hfast).trans e⟩

end Sys2Proof.Machine
end

