-- ==== Sys2Proof/Proofs/Lifecycle.lean ====
section
/-!
The lifecycle controller (spec/43_lifecycle.md R190, R200 to R202, R210): IS_CONNECTED, which LSTATE a step can enter,
and the paths of UPDATE that are no connected tick.
-/
namespace Sys2Proof.Machine

/-! ### LSTATE -/

/-- Settles O15: the data is the connected bit, which tells Connected from the other two. -/
theorem isConnectedAnswers : Obligations.IsConnectedAnswers := by
  rintro ⟨lstate⟩
  cases lstate <;> rfl

/-- LSTATE is written on a timeout and a lost sensor, which leave Disconnected, and on an acquisition, which leaves
Connected (R190). -/
theorem initialised_stepClosed : StepClosed fun s => s.lstate ≠ .uninitialized where
  commands _ _ h := h
  acquiring _ _ h := h
  respond _ _ _ _ h := h
  plain _ _ _ h := h
  address _ h := h
  setAddr _ _ h := h
  raw _ h := h
  clock _ h := h
  request _ h := h
  lost _ _ := nofun
  seed _ _ _ _ _ := nofun
  feed _ _ _ _ _ _ h := by simpa using h
  coefficients _ _ _ h := by simpa using h

/-- Settles O46: once left, Uninitialized is not entered by any part of a step. -/
theorem onlyResetUninitializes : Obligations.OnlyResetUninitializes := by
  intro s t hstep ht
  by_contra hs
  exact initialised_stepClosed.step hs hstep ht

/-! ### UPDATE on the sentinel -/

/-- Settles O35: step 0 of UPDATE. -/
theorem updateNeedsInit : Obligations.UpdateNeedsInit := fun _ hl => congrArg Host.Outcome.next (if_pos hl)

/-- On the sentinel UPDATE is its step 3, after its step 1 (R200). -/
theorem updateCommand_of_sentinel {w : Raw} {s : State} {rs : List Raw} (hl : s.lstate ≠ .uninitialized)
    (hraw : (updateStale s).rawIn = w :: rs) : updateCommand w s = updateLost (takeRaw (updateStale s)) := by
  have hread : rawAnswer (updateStale s) = w := rawAnswer_of_cons hraw
  simp only [updateCommand, hl, if_false, updateWithReading, hread, if_true]

/-- Settles O39: step 1 leaves LSTATE and CHAN, by which step 3 emits its diagnostic. -/
theorem updateReportsALostSensorOnce : Obligations.UpdateReportsALostSensorOnce := by
  rintro s _ rs hl rfl hraw
  have hread : rawAnswer (updateStale s) = Config.rawSentinel := rawAnswer_of_cons hraw
  have hexec : exec .update s = .next (updateLost (takeRaw (updateStale s))) :=
    congrArg _ (updateCommand_of_sentinel hl hraw)
  have hl' : (updateStale s).lstate = s.lstate := updateStale_lstate s
  have hchan : (updateStale s).chan = s.chan := (updateStale_waitedFrom s).chan
  generalize updateStale s = s1 at *
  rw [hexec, updateLost_eq, takeRaw_lstate, takeRaw_chan, hl', hchan, Host.Outcome.next.injEq]
  apply State.ext <;> simp [hread, hraw]

/-! ### UPDATE when the reconnect fails -/

/-- Once InitProc has returned Connected, the sentinel as the re-read is a lost sensor (R200 step 4, R202). -/
theorem updateAfterInit_of_sentinel {w : Raw} {u : State} {rs : List Raw} (hl : u.lstate = .connected)
    (hraw : u.rawIn = w :: rs) : updateAfterInit w u = { u with
      lstate := .disconnected, rawIn := rs, rawAsked := u.rawAsked + 1
      trace := u.trace ++ [.busReadRaw u.addr w, .diag (diagWord .disconnect u.chan)]
      responses := u.responses ++ [responseWord .ok 0] } := by
  have hread : rawAnswer u = w := rawAnswer_of_cons hraw
  simp only [updateAfterInit, hl, if_true, hread, updateLost_eq]
  apply State.ext <;> simp [hl, hread, hraw]

/-- Settles O41: what follows InitProc, by the LSTATE it returns with and the re-read. -/
theorem updateReconnectCanFail : Obligations.UpdateReconnectCanFail := by
  rintro s _ u raw0 rs0 hl rfl hraw0 hvalid0 hdone
  have hexec : exec .update s = .next (updateAfterInit Config.rawSentinel u) := by
    show Host.Outcome.next (updateCommand Config.rawSentinel s) = _
    rw [updateCommand_of_back hl hraw0 hvalid0, hdone]
    rfl
  rw [hexec]
  exact ⟨fun hlost => congrArg _ (if_neg hlost), fun rs hconn hraw =>
    congrArg _ (updateAfterInit_of_sentinel hconn hraw)⟩

end Sys2Proof.Machine
end

