-- ==== Sys2Proof/Proofs/AcquisitionEnds.lean ====
section
/-!
How an acquisition ends after any number of failed polls (spec/43_lifecycle.md R192 to R194; R283): inside INIT, and in
a later step that goes on with a spin-wait of INIT or UPDATE (R201 paths E, F and G).
-/
namespace Sys2Proof.Machine

/-! ### Failed polls -/

/-- The state failed polls leave, with `rs` and `cs` the readings and clock readings still to come: one reading of the
sentinel and one clock reading each (R192 step 6). -/
def State.polled (polls : List Millis) (rs : List Raw) (cs : List Millis) (s : State) : State :=
  { s with
    rawIn := rs, clockIn := cs, rawAsked := s.rawAsked + polls.length, clockAsked := s.clockAsked + polls.length
    trace := s.trace ++ failedPolls s.addr polls }

theorem State.polled_nil (s : State) : s.polled [] s.rawIn s.clockIn = s := by simp [State.polled, failedPolls]

/-- Failed polls one after the other. -/
theorem State.polled_cons (p : Millis) (ps : List Millis) (rs' rs : List Raw) (cs' cs : List Millis) (s : State) :
    (s.polled [p] rs' cs').polled ps rs cs = s.polled (p :: ps) rs cs := by
  apply State.ext <;> simp [State.polled, failedPolls, Nat.add_assoc, Nat.add_comm 1]

theorem failedPolls_append (addr : Addr) (a b : List Millis) :
    failedPolls addr (a ++ b) = failedPolls addr a ++ failedPolls addr b := by
  induction a with
  | nil => rfl
  | cons p a ih => simp [failedPolls, ih]

/-- The sentinel with the clock within 2000 ms of the request leaves the spin-wait going on (R192 step 6). -/
theorem pollOnce_of_early {w : Raw} {t : Millis} {s : State} {rs : List Raw} {cs : List Millis}
    (h : s.rawIn = w :: rs) (hc : s.clockIn = t :: cs) (ht : elapsed t s.tReq ≤ 2000#32) :
    pollOnce w s = .again (takeClock (takeRaw s)) := by
  simp [pollOnce, rawAnswer_of_cons h, clockAnswer_of_cons hc, ht]

/-- InitProc after failed polls: the loop goes on with the readings still listed. -/
theorem initProc_of_failedPolls {s : State} {t0 : Millis} {polls cs : List Millis} {rs : List Raw}
    (hraw : s.rawIn = polls.map (fun _ => Config.rawSentinel) ++ rs) (hclock : s.clockIn = t0 :: (polls ++ cs))
    (hearly : ∀ p ∈ polls, elapsed p t0 ≤ 2000#32) : initProc Config.rawSentinel s =
      afterPoll (pollLoop Config.rawSentinel rs.length ((initBegin s).polled polls rs cs)) := by
  have hlength : s.rawIn.length = rs.length + polls.length := by simp [hraw, Nat.add_comm]
  have hreq : (initBegin s).tReq = t0 := by simp [initBegin_eq, clockAnswer_of_cons hclock]
  rw [initProc, hlength, pollLoop_failedPolls polls rs.length (initBegin s) rs cs (by simp [initBegin_eq, hraw])
    (by simp [initBegin_eq, hclock]) (by rwa [hreq])]
  rfl

/-! ### INIT -/

/-- Settles O22: steps 1 to 5, the failed polls, the valid one, and steps 7 and 8. -/
theorem initAcquires : Obligations.InitAcquires := by
  intro s answer addrs raw1 raw2 rs t0 polls t1 cs haddr hraw hvalid hclock hearly
  set u := (initBegin s).polled polls (raw1 :: raw2 :: rs) (t1 :: cs) with hu
  have hexec : exec .init s = .next (respondOk 0 (initFinish (takeRaw u))) := by
    show Host.Outcome.next (initCommand Config.rawSentinel s) = _
    have hpoll : pollOnce Config.rawSentinel u = .valid (takeRaw u) := pollOnce_of_valid rfl hvalid
    rw [initCommand, initProc_of_failedPolls hraw hclock hearly, List.length_cons, pollLoop, hpoll]
    rfl
  rw [hexec, initFinish_eq, Host.Outcome.next.injEq]
  apply State.ext <;> simp [hu, State.polled, initBegin_eq, resolvedAddr, addressAnswer, rawAnswer, clockAnswer, haddr,
    hclock, Nat.add_right_comm]

/-- Settles O23: steps 1 to 5, the failed polls and the one that sees the clock too late. -/
theorem initTimesOut : Obligations.InitTimesOut := by
  intro s answer addrs rs t0 polls last cs haddr hraw hclock hearly hlate
  set u := (initBegin s).polled polls (Config.rawSentinel :: rs) (last :: cs) with hu
  have hreq : u.tReq = t0 := by simp [hu, State.polled, initBegin_eq, clockAnswer_of_cons hclock]
  have hexec : exec .init s = .next (respondOk 0 { takeClock (takeRaw u) with lstate := .disconnected }) := by
    show Host.Outcome.next (initCommand Config.rawSentinel s) = _
    have hpoll : pollOnce Config.rawSentinel u = .timeout (takeClock (takeRaw u)) :=
      pollOnce_of_timeout rfl rfl (hreq ▸ hlate)
    rw [initCommand, initProc_of_failedPolls hraw hclock hearly, List.length_cons, pollLoop, hpoll]
    rfl
  rw [hexec, Host.Outcome.next.injEq]
  apply State.ext <;> simp [hu, State.polled, initBegin_eq, resolvedAddr, addressAnswer, rawAnswer, clockAnswer, haddr,
    hclock, failedPolls_append, failedPolls, Nat.add_right_comm]

/-! ### A spin-wait in progress -/

/-- A step that polls early leaves the spin-wait in progress (R283; log entry 11). -/
theorem step_of_early {s : State} {c : Caller} {p : Millis} {rs : List Raw} {cs : List Millis}
    (ha : s.acquiring = some c) (hraw : s.rawIn = Config.rawSentinel :: rs) (hclock : s.clockIn = p :: cs)
    (hearly : elapsed p s.tReq ≤ 2000#32) : step s = .next (s.polled [p] rs cs) := by
  have hpoll := pollOnce_of_early (s := { s with acquiring := none }) hraw hclock hearly
  rw [step_of_acquiring ha, continueCommand, hpoll, afterPoll, afterAcquisition, Host.Outcome.next.injEq]
  apply State.ext <;> simp [State.polled, failedPolls, ha, hraw, hclock, rawAnswer, clockAnswer]

/-- Settles O24: each step is one failed poll. -/
theorem spinWaitHasNoPollLimit : Obligations.SpinWaitHasNoPollLimit := by
  intro polls
  induction polls with
  | nil =>
    rintro s c _ _ - rfl rfl -
    exact congrArg Host.Outcome.next s.polled_nil.symm
  | cons p ps ih =>
    intro s c rs cs ha hraw hclock hearly
    obtain ⟨hp, hps⟩ := List.forall_mem_cons.1 hearly
    calc Host.Core.run core (ps.length + 1) s
      _ = Host.Core.run core ps.length (s.polled [p] _ _) := run_succ _ (step_of_early ha hraw hclock hp)
      _ = .next ((s.polled [p] _ _).polled ps rs cs) := ih _ c rs cs ha rfl rfl hps
      _ = .next (s.polled (p :: ps) rs cs) := congrArg _ (s.polled_cons p ps _ rs _ cs)

/-- A step that reads a valid value goes on with steps 7 and 8 of InitProc (R192; log entry 11). -/
theorem step_of_valid {s : State} {c : Caller} {raw : Raw} {rs : List Raw} (ha : s.acquiring = some c)
    (hraw : s.rawIn = raw :: rs) (hvalid : raw ≠ Config.rawSentinel) : step s = .next
      (afterAcquisition Config.rawSentinel c (.done (initFinish (takeRaw { s with acquiring := none })))) := by
  have hpoll := pollOnce_of_valid (s := { s with acquiring := none }) hraw hvalid
  rw [step_of_acquiring ha, continueCommand, hpoll, afterPoll]

/-- Disconnected at the end of InitProc, either caller answers and does nothing else (R194, R202). -/
theorem afterAcquisition_of_disconnected (w : Raw) (c : Caller) {s : State} (hl : s.lstate = .disconnected) :
    afterAcquisition w c (.done s) = respondOk 0 s := by
  cases c with
  | init => rfl
  | update => exact if_neg (by simp [hl])

/-- Settles O25: steps 7 and 8 of InitProc or its timeout, and then what the command does with the LSTATE they leave. -/
theorem spinWaitResumesToItsEnd : Obligations.SpinWaitResumesToItsEnd := by
  refine ⟨?_, ?_, ?_, ?_⟩
  · -- INIT on a valid reading
    intro s raw1 raw2 rs t1 cs ha hraw hvalid hclock
    rw [step_of_valid ha hraw hvalid, afterAcquisition, initFinish_eq, Host.Outcome.next.injEq]
    apply State.ext <;> simp [hraw, hclock, rawAnswer, clockAnswer]
  · -- either command on timeout
    intro s c rs last cs ha hraw hclock hlate
    have hpoll := pollOnce_of_timeout (s := { s with acquiring := none }) hraw hclock hlate
    rw [step_of_acquiring ha, continueCommand, hpoll, afterPoll, afterAcquisition_of_disconnected _ _ rfl,
      Host.Outcome.next.injEq]
    apply State.ext <;> simp [hraw, hclock, rawAnswer, clockAnswer]
  · -- UPDATE with a valid re-read (path E)
    intro s raw1 raw2 raw3 rs t1 t2 cs ha hraw hvalid hvalid' hclock
    have hraw' : (initFinish (takeRaw { s with acquiring := none })).rawIn = raw3 :: rs := by simp [initFinish_eq, hraw]
    rw [step_of_valid ha hraw hvalid, afterAcquisition, updateAfterInit_of_valid rfl hraw' hvalid', updateFeed,
      slopeStep_of_first rfl, initFinish_eq, Host.Outcome.next.injEq]
    apply State.ext <;> simp [hraw, hclock, rawAnswer, clockAnswer]
  · -- UPDATE with the sentinel as the re-read (path G)
    intro s raw1 raw2 rs t1 cs ha hraw hvalid hclock
    have hraw' : (initFinish (takeRaw { s with acquiring := none })).rawIn = Config.rawSentinel :: rs := by
      simp [initFinish_eq, hraw]
    rw [step_of_valid ha hraw hvalid, afterAcquisition, updateAfterInit_of_sentinel rfl hraw', initFinish_eq,
      Host.Outcome.next.injEq]
    apply State.ext <;> simp [hraw, hclock, rawAnswer, clockAnswer]

end Sys2Proof.Machine
end
